-- ==== Sys2Proof/Word.lean ====
section
/-! DEFINITION. The word of the LS8 core: the 8-bit unsigned byte (R1). -/

namespace Sys2Proof

/-- General registers, memory cells, instruction bytes, immediates and output values are all 8 bits
wide and unsigned (00_scope.md R1). -/
abbrev Byte := BitVec 8

end Sys2Proof
end

