-- ==== Sys2Proof/Syntax.lean ====
section
/-! DEFINITION. The instructions of the LS8 core, one constructor for each row of
spec/opcode_table.json (R48). -/

namespace Sys2Proof

/-- The four instructions. A register operand is kept as its WHOLE operand byte, because a byte of 8
or more is still an instruction of its opcode, one that raises `InvalidRegister` with that byte when
it is executed (R45, R59). Which operand is a register and which an immediate is R47. -/
inductive Instr where
  /-- `HLT`: stop the run normally (R69). -/
  | hlt
  /-- `LDI R<r>, <i>`: write the immediate `i` to register `r` (R71). -/
  | ldi (r i : Byte)
  /-- `PRN R<r>`: send register `r` to the output port (R72). -/
  | prn (r : Byte)
  /-- `MUL R<r>, R<q>`: write the low 8 bits of the product of registers `r` and `q` to `r` (R75). -/
  | mul (r q : Byte)
  deriving DecidableEq, Repr

end Sys2Proof
end

