-- ==== Sys2Proof/WellFormed.lean ====
section
/-! DEFINITION. Which instructions name only registers that exist (R45). An instruction that is not
well-formed is no decoding error: its execution raises `InvalidRegister` (R81). -/

namespace Sys2Proof

/-- A register operand byte names a register when it is at most 7; it is not masked (R45). -/
def namesRegister (b : Byte) : Bool := decide (b.toNat < 8)

/-- The operand bytes used as register indices, in ascending operand position: `RegOperands` of R54
(R47). -/
def Instr.registerBytes : Instr → List Byte
  | .hlt => []
  | .ldi r _ => [r]
  | .prn r => [r]
  | .mul r q => [r, q]

/-- Every register operand of the instruction names a register. An immediate is never checked
(R46, R59). -/
def Instr.wf (i : Instr) : Bool := i.registerBytes.all namesRegister

end Sys2Proof
end

