-- ==== Sys2Proof/Decode.lean ====
section
/-! DEFINITION. From instruction bytes to instructions and back (30_encoding.md R42 to R50). -/

namespace Sys2Proof

/-- The four defined opcodes (R48). -/
inductive Opcode where
  | hlt
  | ldi
  | prn
  | mul
  deriving DecidableEq, Repr

/-- The opcode map of R48, in the table's order. -/
def opcodeTable : List (Byte × Opcode) :=
  [(0x01, .hlt), (0x82, .ldi), (0x47, .prn), (0xA2, .mul)]

/-- The opcode byte of a defined opcode (R48). -/
def Opcode.byte : Opcode → Byte
  | .hlt => 0x01
  | .ldi => 0x82
  | .prn => 0x47
  | .mul => 0xA2

/-- `n = opcode[7:6]`, the number of operand bytes (R42, R56). -/
def operandCount (op : Byte) : Nat := (op.extractLsb' 6 2).toNat

/-- The opcode is the whole byte: all 8 bits are compared with the defined values, and any other byte
is illegal (R43, R49). -/
def decodeOpcode (op : Byte) : Option Opcode := opcodeTable.lookup op

/-- Why a sequence of bytes is no instruction. -/
inductive DecodeError where
  /-- There is no opcode byte. -/
  | noOpcode
  /-- The opcode byte is none of the four defined ones (R49). -/
  | illegalOpcode (op : Byte)
  /-- The bytes end before operand `k` of a defined opcode, counted from 0. -/
  | missingOperand (k : Nat)
  deriving DecidableEq, Repr

/-- Read the operands of a defined opcode from the bytes after it: formats F0, F2-RI, F1-R and F2-RR
(R44, R47). The bytes that are not part of the instruction are given back. -/
def decodeOperands : Opcode → List Byte → Except DecodeError (Instr × List Byte)
  | .hlt, rest => .ok (.hlt, rest)
  | .ldi, r :: i :: rest => .ok (.ldi r i, rest)
  | .ldi, [_] => .error (.missingOperand 1)
  | .ldi, [] => .error (.missingOperand 0)
  | .prn, r :: rest => .ok (.prn r, rest)
  | .prn, [] => .error (.missingOperand 0)
  | .mul, r :: q :: rest => .ok (.mul r q, rest)
  | .mul, [_] => .error (.missingOperand 1)
  | .mul, [] => .error (.missingOperand 0)

/-- Decode the instruction at the head of a sequence of bytes: the opcode first, then its operands at
ascending addresses (R31, R42). Total: every sequence gives an instruction or a named error. -/
def decode : List Byte → Except DecodeError (Instr × List Byte)
  | [] => .error .noOpcode
  | op :: rest =>
    match decodeOpcode op with
    | none => .error (.illegalOpcode op)
    | some o => decodeOperands o rest

/-- The opcode of an instruction (R48). -/
def Instr.opcode : Instr → Opcode
  | .hlt => .hlt
  | .ldi _ _ => .ldi
  | .prn _ => .prn
  | .mul _ _ => .mul

/-- The operand bytes of an instruction, in ascending address order (R44). -/
def Instr.operands : Instr → List Byte
  | .hlt => []
  | .ldi r i => [r, i]
  | .prn r => [r]
  | .mul r q => [r, q]

/-- The bytes of an instruction: the opcode byte, then the operand bytes (R42, R44). -/
def encode (i : Instr) : List Byte := i.opcode.byte :: i.operands

/-- The number of operand bytes of an instruction, from its opcode byte (R42). -/
def Instr.count (i : Instr) : Nat := operandCount i.opcode.byte

/-- The `k`-th byte of a table word, byte 0 the least significant. -/
def tableByte (nbits w k : Nat) : Byte := BitVec.ofNat 8 ((w % 2 ^ nbits) >>> (8 * k))

/-- The bytes of a table word up to the longest defined instruction (three bytes, R2), every bit above
`nbits` zero. -/
def tableBytes (nbits w : Nat) : List Byte :=
  [tableByte nbits w 0, tableByte nbits w 1, tableByte nbits w 2]

/-- What the decoder reads from a word numbered as spec/opcode_table.json numbers it. -/
def decodeTableWord (nbits w : Nat) : Option Instr :=
  match decode (tableBytes nbits w) with
  | .ok (i, _) => some i
  | .error _ => none

end Sys2Proof
end

