-- ==== Sys2Proof/Config.lean ====
section
/-! DEFINITION. The open parameters of the LS8 core (R3). No source fixes any of them, so each is a
constant without a body: every statement about the model holds for every value of them. -/

namespace Sys2Proof.Config

/-- `REG_INIT[i]`: the value of general register `i` at reset, fixed for the implementation
(R3, R9; 92_eei_decisions.md D1). DESIGN CHOICE, log entry 1. Safe. -/
opaque regInit : Fin 8 → Byte

/-- `MEM_INIT[a]`: the value of memory cell `a` before the host's loader writes it
(R3, R35; 92_eei_decisions.md D2). DESIGN CHOICE, log entry 2. Safe. -/
opaque memInit : Fin 256 → Byte

/-- `FL_INIT`: the value of the inert flags register (R3, R10; 92_eei_decisions.md D3).
DESIGN CHOICE, log entry 1. Safe. -/
opaque flInit : Byte

/-- `CYCLES`: the time the instruction with a given opcode byte takes. It is a parameter of R3, and
no rule depends on it (R111; 92_eei_decisions.md D15), so no definition of the model reads it
(log entry 9). -/
opaque cycles : Byte → Nat

end Sys2Proof.Config
end

