-- ==== Sys2Proof/Machine/State.lean ====
section
/-! DEFINITION. The state of the LS8 core and its memory, exactly the tuple of R4, as plain data; the
model's own stops; the state after reset (R98). -/

namespace Sys2Proof.Machine

/-- The run status (R14). -/
inductive Status where
  /-- The core takes steps. -/
  | running
  /-- The run ended normally, through HLT (R70). Terminal. -/
  | halted
  /-- The run ended with a fault (R84). Terminal. -/
  | faulted
  deriving DecidableEq, Repr

/-- What a step raises, with the information it records (R78). These are the hardware's faults; a step
that raises one answers a next state (R84). -/
inductive Cause where
  /-- `OutOfBounds(addr)`: an access at an address outside 0..255 (R79). -/
  | outOfBounds (addr : Nat)
  /-- `IllegalInstruction(op)`: the opcode byte is none of the four (R80). -/
  | illegalInstruction (op : Byte)
  /-- `InvalidRegister(b)`: a register operand byte of 8 or more (R81). -/
  | invalidRegister (b : Byte)
  deriving DecidableEq, Repr

/-- The fault record `(kind, at, info)` (R15): the cause holds the kind and its information, `atPc` is
the value of `pc` when the faulting step began. -/
structure FaultRecord where
  cause : Cause
  atPc  : Nat
  deriving DecidableEq, Repr

/-- Memory: its cells as (address, byte) pairs at rising addresses (R23). An address that is not
listed holds no cell. -/
abbrev Memory := List Host.Cell

/-- The canonical form: the listed addresses are exactly 0, 1, ..., 255 in this order. So they rise
strictly, all 256 cells of R23 are there, and equal memories are equal lists. -/
abbrev Memory.wf (m : Memory) : Prop := m.map Prod.fst = List.range 256

/-- Memory with every cell at the open parameter `MEM_INIT[a]` (R35). -/
def Memory.init : Memory := (List.finRange 256).map fun a => (a.val, Config.memInit a)

/-- The complete state of R4, `(x[0..7], FL, pc, status, fault, M[0..255], out)`. -/
structure State where
  /-- `x[0..7]`, the general registers R0 to R7 (R6). R5, R6 and R7 are ordinary registers (R8). -/
  regs   : Vector Byte 8
  /-- `FL`, the inert flags register (R10). -/
  fl     : Byte
  /-- The program counter, an integer from 0 to 256 (R11). The range is an invariant (Safety.lean);
  the arithmetic on it is exact and never wraps (R29). -/
  pc     : Nat
  /-- The run status (R14). -/
  status : Status
  /-- The fault record (R15). -/
  fault  : Option FaultRecord
  /-- `M[0..255]` (R23). -/
  mem    : Memory
  /-- The output log, oldest value first (R17). -/
  out    : List Byte
  deriving DecidableEq, Repr

/-- The MODEL's own stops, none of them a fault of the hardware (those are `Cause`). -/
inductive Fault where
  /-- Raised by the instruction fetch when the state's memory lists no cell at an address from 0 to 255.
  R23 gives every such address a cell, and no state with `Memory.wf` raises this: the reset state has it
  and every step keeps it. Safe. Log entry 3. -/
  | missingCell (addr : Nat)
  deriving DecidableEq, Repr

/-- Why an instruction has no meaning. -/
inductive Refusal where
  /-- Raised by an arm of `exec` whose instruction is not modelled; no arm of this model raises it.
  Safe. -/
  | notModelled (mnemonic : String)
  deriving DecidableEq, Repr

/-- The state after a power-on reset (R98): `pc = 0` (R13), `Running` and no fault (R16), an empty
output log (R17), the registers at `REG_INIT` (R9), FL at `FL_INIT` (R10), every memory cell at
`MEM_INIT` (R35). No image is loaded. -/
def State.reset : State where
  regs   := #v[Config.regInit 0, Config.regInit 1, Config.regInit 2, Config.regInit 3,
               Config.regInit 4, Config.regInit 5, Config.regInit 6, Config.regInit 7]
  fl     := Config.flInit
  pc     := 0
  status := .running
  fault  := none
  mem    := Memory.init
  out    := []

end Sys2Proof.Machine
end

