-- ==== Sys2Proof/Machine/Ops.lean ====
section
/-! DEFINITION. The named operations over memory and registers (20_memory.md), fault entry (R84), the
end of a step (R62, R63) and the instruction fetch (R54 to R58). -/

namespace Sys2Proof.Machine

/-! ## Memory -/

/-- `MEMSIZE`: addresses 0 to 255 have a cell (R2, R23). -/
def memSize : Nat := 256

/-- Why a memory read gives no byte. -/
inductive Stop where
  /-- The hardware raises a fault (R78). -/
  | raised (c : Cause)
  /-- The state lists no cell at an address that has one (log entry 3). -/
  | noCell (addr : Nat)
  deriving DecidableEq, Repr

/-- The byte listed at an address. -/
def lookupCell : Memory → Nat → Option Byte
  | [], _ => none
  | (b, v) :: m, a => if a = b then some v else lookupCell m a

/-- List a byte at an address, in the address order, in place of the byte listed there. -/
def setCell : Memory → Nat → Byte → Memory
  | [], a, v => [(a, v)]
  | (b, w) :: m, a, v =>
    if a < b then (a, v) :: (b, w) :: m
    else if a = b then (a, v) :: m
    else (b, w) :: setCell m a v

/-- `MemRead(addr, 1)` (R24): the address is range-checked and never wrapped. -/
def memRead (m : Memory) (a : Nat) : Except Stop Byte :=
  if a < memSize then
    match lookupCell m a with
    | some v => .ok v
    | none => .error (.noCell a)
  else .error (.raised (.outOfBounds a))

/-- `MemWrite(addr, 1, v)` (R25). The core never calls it; the host's loader does (R28, R102). -/
def memWrite (m : Memory) (a : Nat) (v : Byte) : Except Cause Memory :=
  if a < memSize then .ok (setCell m a v) else .error (.outOfBounds a)

/-- Read `n` bytes at ascending addresses from `a` on, one read each, stopping at the first that fails
(R30, R31, R58). -/
def readBytes (m : Memory) (a : Nat) : Nat → Except Stop (List Byte)
  | 0 => .ok []
  | n + 1 =>
    match memRead m a with
    | .error e => .error e
    | .ok v =>
      match readBytes m (a + 1) n with
      | .error e => .error e
      | .ok vs => .ok (v :: vs)

/-- Write bytes at ascending addresses from `a` on, each by `MemWrite`, stopping at the first that
fails (R102). -/
def writeBytes (m : Memory) (a : Nat) : List Byte → Except Cause Memory
  | [] => .ok m
  | v :: vs =>
    match memWrite m a v with
    | .error c => .error c
    | .ok m' => writeBytes m' (a + 1) vs

/-- Place bytes at ascending addresses from `a` on; a byte that would fall outside memory is dropped.
Only `State.withFetchWord` uses it, which is no operation of the hardware. -/
def placeBytes (m : Memory) (a : Nat) : List Byte → Memory
  | [] => m
  | v :: vs =>
    match memWrite m a v with
    | .error _ => m
    | .ok m' => placeBytes m' (a + 1) vs

/-! ## Registers, output and status -/

/-- `x[i]` (R6). -/
def readReg (s : State) (i : Fin 8) : Byte := s.regs[i]

/-- `x[i] <- v` (R6). No register is hardwired: R0 to R7 all hold what is written (R6, R8). -/
def writeReg (s : State) (i : Fin 8) (v : Byte) : State := { s with regs := s.regs.set i v }

/-- `Emit(v)`: append `v` to the output log (R17, R72). The port never stalls and never fails (R74). -/
def emit (s : State) (v : Byte) : State := { s with out := s.out ++ [v] }

/-- `status <- Halted` (R69). -/
def halt (s : State) : State := { s with status := .halted }

/-- `pc <- target`. -/
def setPc (s : State) (p : Nat) : State := { s with pc := p }

/-! ## Taking a fault -/

/-- Fault entry (R84): `status <- Faulted`, `fault <- (K, p, info)` with `p` the address of the faulting
opcode, which `pc` still holds; nothing else changes. There is no vector and no saved register (R85). -/
def raise (c : Cause) (s : State) : State :=
  { s with status := .faulted, fault := some { cause := c, atPc := s.pc } }

/-- Leaving `Halted` or `Faulted`: the only return there is, a reset by the host (R86, R99). It sets
every piece of core state to its reset value and changes no memory cell (R98). -/
def applyReset (s : State) : State := { State.reset with mem := s.mem }

/-! ## The end of a step -/

/-- What a handler gives back: the state it leaves, and whether it wrote `pc` itself (R63). -/
structure Handled where
  state : State
  pcSet : Bool
  deriving DecidableEq, Repr

/-- The end of a step (R62): `pc <- p + n + 1`, exact, if the status is still `Running` and the handler
did not write `pc`. A halting step does not advance (R64). -/
def finish (n : Nat) (h : Handled) : Host.Outcome State Fault Refusal :=
  if h.state.status = .running ∧ h.pcSet = false then .next (setPc h.state (h.state.pc + n + 1))
  else .next h.state

/-! ## Instruction fetch -/

/-- Fetch and decode the instruction at `pc` (R54 to R58): the opcode byte, then the dispatch, which
raises `IllegalInstruction` before any operand byte is read (R57), then all operand bytes in ascending
order. No other byte is read (R68). The last error branch cannot be reached: a defined opcode with all
its operand bytes decodes. -/
def fetch (s : State) : Except Stop Instr :=
  match memRead s.mem s.pc with
  | .error e => .error e
  | .ok op =>
    match decodeOpcode op with
    | none => .error (.raised (.illegalInstruction op))
    | some _ =>
      match readBytes s.mem (s.pc + 1) (operandCount op) with
      | .error e => .error e
      | .ok bs =>
        match decode (op :: bs) with
        | .ok (i, _) => .ok i
        | .error _ => .error (.raised (.illegalInstruction op))

/-- A step whose fetch stopped: the hardware's fault is taken (R84), the model's own stop is
reported. -/
def stopFetch (e : Stop) (s : State) : Host.Outcome State Fault Refusal :=
  match e with
  | .raised c => .next (raise c s)
  | .noCell a => .fault (.missingCell a)

end Sys2Proof.Machine
end

