-- ==== Sys2Proof/Machine/Operands.lean ====
section
/-! DEFINITION. The operand forms: a register operand and an immediate operand (R45 to R47). -/

namespace Sys2Proof.Machine

/-- A register operand is the whole byte as an unsigned index: it names `x[b]` for `b <= 7` and no
register otherwise; it is not masked to its low three bits (R45). -/
def regOperand (b : Byte) : Option (Fin 8) := if h : b.toNat < 8 then some ⟨b.toNat, h⟩ else none

/-- Validate one register operand and go on with the register it names; a byte that names none raises
`InvalidRegister(b)` and ends the step with nothing written (R59, R81). -/
def withReg (b : Byte) (s : State) (k : Fin 8 → Host.Outcome State Fault Refusal) :
    Host.Outcome State Fault Refusal :=
  match regOperand b with
  | none => .next (raise (.invalidRegister b) s)
  | some i => k i

/-- An immediate operand is the whole byte, with no extension, scaling or shift, and is never
checked (R46). -/
def immediate (b : Byte) : Byte := b

end Sys2Proof.Machine
end

