-- ==== Sys2Proof/Machine/Alu.lean ====
section
/-! DEFINITION. The ALU family: MUL, its only operation (44_multiply.md R75 to R77). -/

namespace Sys2Proof.Machine

/-- The multiply of the ALU: the exact product of two unsigned values, reduced modulo 256
(R75, R76). -/
def mul8 (a b : Byte) : Byte := BitVec.ofNat 8 (a.toNat * b.toNat % 256)

/-- The handler of MUL: both sources are read before the write; `x[r] <- (a * b) mod 256` (R75). -/
def handleMul (r q : Fin 8) (s : State) : Handled :=
  { state := writeReg s r (mul8 (readReg s r) (readReg s q)), pcSet := false }

/-- MUL (R75): operand 0 is checked, then operand 1, so the first invalid one is reported; then the
product's low 8 bits go to `x[r]` and `pc <- p + 3`. No flag is written, and an overflowing product is
no exception. -/
def execMul (r q : Byte) (s : State) : Host.Outcome State Fault Refusal :=
  withReg r s fun d => withReg q s fun e => finish (operandCount Opcode.mul.byte) (handleMul d e s)

end Sys2Proof.Machine
end

