-- ==== Sys2Proof/Machine/Control.lean ====
section
/-! DEFINITION. The control family: HLT (41_halt.md). -/

namespace Sys2Proof.Machine

/-- The handler of HLT: `status <- Halted`, `pc` not written (R69). -/
def handleHlt (s : State) : Handled := { state := halt s, pcSet := false }

/-- HLT (R69): the run ends normally, and `pc` keeps the address of the HLT byte because a halting step
does not advance (R64). -/
def execHlt (s : State) : Host.Outcome State Fault Refusal :=
  finish (operandCount Opcode.hlt.byte) (handleHlt s)

end Sys2Proof.Machine
end

