-- ==== Sys2Proof/Machine/Load.lean ====
section
/-! DEFINITION. The register-load family: LDI (42_load_immediate.md). -/

namespace Sys2Proof.Machine

/-- The handler of LDI: `x[r] <- i` (R71). -/
def handleLdi (r : Fin 8) (i : Byte) (s : State) : Handled :=
  { state := writeReg s r (immediate i), pcSet := false }

/-- LDI (R71): the register operand is checked, the immediate never; then `x[r] <- i` and
`pc <- p + 3`. -/
def execLdi (r i : Byte) (s : State) : Host.Outcome State Fault Refusal :=
  withReg r s fun d => finish (operandCount Opcode.ldi.byte) (handleLdi d i s)

end Sys2Proof.Machine
end

