-- ==== Sys2Proof/Machine/Output.lean ====
section
/-! DEFINITION. The output family, PRN, and the host's rendering of the output port
(43_print.md). -/

namespace Sys2Proof.Machine

/-- The handler of PRN: `Emit(x[r])` (R72). -/
def handlePrn (r : Fin 8) (s : State) : Handled := { state := emit s (readReg s r), pcSet := false }

/-- PRN (R72): the register operand is checked; then `out <- out ++ [x[r]]` and `pc <- p + 2`. -/
def execPrn (r : Byte) (s : State) : Host.Outcome State Fault Refusal :=
  withReg r s fun d => finish (operandCount Opcode.prn.byte) (handlePrn d s)

/-- The ASCII code of the decimal digit `n mod 10`. -/
def asciiDigit (n : Nat) : Byte := BitVec.ofNat 8 (0x30 + n % 10)

/-- The decimal digits of a value from 0 to 255, with no sign, no leading zeros and no padding; 0 is
the single digit 0 (R73). -/
def decimalDigits (v : Byte) : List Byte :=
  if v.toNat < 10 then [asciiDigit v.toNat]
  else if v.toNat < 100 then [asciiDigit (v.toNat / 10), asciiDigit v.toNat]
  else [asciiDigit (v.toNat / 100), asciiDigit (v.toNat / 10), asciiDigit v.toNat]

/-- One emitted value as the host renders it: its digits and one line feed (R73). -/
def renderLine (v : Byte) : List Byte := decimalDigits v ++ [0x0A]

/-- The bytes the host has written to standard output for an output log, in the log's order
(R73, R74). -/
def renderOutput (out : List Byte) : List Byte := out.flatMap renderLine

end Sys2Proof.Machine
end

