-- ==== Sys2Proof/Machine/Dispatch.lean ====
section
/-! DEFINITION. The dispatch of a fetched instruction to its meaning (R60). -/

namespace Sys2Proof.Machine

/-- Register validation, handler and advance of one fetched instruction (R59, R60, R62). The step calls it
only while the status is `Running` (R54). -/
def exec (i : Instr) (s : State) : Host.Outcome State Fault Refusal :=
  match i with
  | .hlt => Sys2Proof.Machine.execHlt s
  | .ldi r v => Sys2Proof.Machine.execLdi r v s
  | .prn r => Sys2Proof.Machine.execPrn r s
  | .mul r q => Sys2Proof.Machine.execMul r q s

end Sys2Proof.Machine
end

