-- ==== Sys2Proof/Machine/Step.lean ====
section
/-! DEFINITION. One step of the LS8 core (R54), and the placing of a table word for the host's
check. -/

namespace Sys2Proof.Machine

/-- One step (R54). It is taken only while the status is `Running`; `Halted` and `Faulted` are terminal,
and in them the state stays as it is (R14, R65, R95; log entry 4). -/
def step (s : State) : Host.Outcome State Fault Refusal :=
  match s.status with
  | .running =>
    match fetch s with
    | .ok i => exec i s
    | .error e => stopFetch e s
  | .halted => .next s
  | .faulted => .next s

/-- `s` with the instruction of a table word stored at `pc`, and `Running` (with the fault record empty,
as R15 asks of `Running`), so that the next step runs it. -/
def State.withFetchWord (s : State) (nbits w : Nat) : State :=
  { s with
    mem := placeBytes s.mem s.pc (tableBytes nbits w)
    status := .running
    fault := none }

end Sys2Proof.Machine
end

