-- ==== Sys2Proof/Machine/Loader.lean ====
section
/-! DEFINITION. The host's side of a launch: the program image as text (R53), the load while the core is
held in reset (R102 to R104), and the launch state (R100). None of these is a step of the core. -/

namespace Sys2Proof.Machine

/-- Why the host's loader refuses, before the core is started (R87, R103, R104). -/
inductive LoadRefusal where
  /-- The image file does not exist (R104). -/
  | fileNotFound
  /-- A line holds a token that is no base-2 literal, or whose value exceeds 255 (R53). -/
  | badLine
  /-- The image has more than 256 bytes: the write at 256 fails with `OutOfBounds(256)` (R103). -/
  | imageTooLong (c : Cause)
  deriving DecidableEq, Repr

/-! ## The image file (R53) -/

/-- Cut a text into its lines at line feeds. -/
def splitLines : List Char → List (List Char)
  | [] => [[]]
  | c :: cs =>
    if c = '\n' then [] :: splitLines cs
    else
      match splitLines cs with
      | [] => [[c]]
      | l :: ls => (c :: l) :: ls

/-- Strip the comment: the `#` and what follows it (R53). -/
def stripComment (l : List Char) : List Char := l.takeWhile (· ≠ '#')

/-- Strip the white space at both ends (R53; the characters are log entry 7). -/
def stripSpace (l : List Char) : List Char :=
  ((l.dropWhile Char.isWhitespace).reverse.dropWhile Char.isWhitespace).reverse

/-- The value of a base-2 digit. -/
def binaryDigit (c : Char) : Option Nat :=
  if c = '0' then some 0 else if c = '1' then some 1 else none

/-- The value of base-2 digits after a value already read; `none` if a character is no base-2
digit. -/
def binaryValue : Nat → List Char → Option Nat
  | acc, [] => some acc
  | acc, c :: cs =>
    match binaryDigit c with
    | none => none
    | some d => binaryValue (2 * acc + d) cs

/-- One line (R53): a skipped line gives no byte, a base-2 literal of value 0 to 255 gives its byte, and
anything else is refused (92_eei_decisions.md D14). -/
def parseLine (l : List Char) : Except LoadRefusal (Option Byte) :=
  match stripSpace (stripComment l) with
  | [] => .ok none
  | token =>
    match binaryValue 0 token with
    | none => .error .badLine
    | some v => if v < 256 then .ok (some (BitVec.ofNat 8 v)) else .error .badLine

/-- The bytes of the lines, in line order (R53). -/
def parseLines : List (List Char) → Except LoadRefusal (List Byte)
  | [] => .ok []
  | l :: ls =>
    match parseLine l with
    | .error e => .error e
    | .ok b =>
      match parseLines ls with
      | .error e => .error e
      | .ok bs => .ok (b.toList ++ bs)

/-- The image a text file holds (R53). -/
def parseImage (text : List Char) : Except LoadRefusal (List Byte) := parseLines (splitLines text)

/-- A byte as the eight base-2 digits of an image line, bit 7 first, as the example of R53 writes it. -/
def binaryLine (v : Byte) : List Char :=
  [7, 6, 5, 4, 3, 2, 1, 0].map fun k => if v.getLsbD k then '1' else '0'

/-- An image as a text file, one byte a line (R53). -/
def imageText (image : List Byte) : List Char := image.flatMap fun v => binaryLine v ++ ['\n']

/-! ## Load and launch -/

/-- Write the image at address 0 while the core is held in reset, byte `j` at address `j`; an image of
more than 256 bytes is refused as a whole (R102, R103). -/
def load (image : List Byte) (s : State) : Except LoadRefusal State :=
  match writeBytes s.mem 0 image with
  | .error c => .error (.imageTooLong c)
  | .ok m => .ok { s with mem := m }

/-- The launch state of a run (R100): the core is reset, which keeps memory (R98), and the image is
loaded; releasing reset then lets the core step (R101). -/
def launch (image : List Byte) (s : State) : Except LoadRefusal State := load image (applyReset s)

/-- A launch from an image file, `none` standing for a file that does not exist. A refusal leaves no
core state behind: the core is not started (R87, R104). -/
def launchFile (file : Option (List Char)) (s : State) : Except LoadRefusal State :=
  match file with
  | none => .error .fileNotFound
  | some text =>
    match parseImage text with
    | .error e => .error e
    | .ok image => launch image s

end Sys2Proof.Machine
end

