-- ==== Sys2Proof/Machine/Flags.lean ====
section
/-! DEFINITION. The flags register FL (R10). The core computes no flag: no instruction reads or writes
FL, and MUL sets none (R75). The one access to FL is the host's inspection (R21). -/

namespace Sys2Proof.Machine

/-- FL as the host's inspection reads it; no instruction calls this (R10, R21). -/
def readFlags (s : State) : Byte := s.fl

end Sys2Proof.Machine
end

