-- ==== Sys2Proof/Machine/Report.lean ====
section
/-! DEFINITION. What the host sees of a state: the encodings of the status and of the fault record
(R14, R15, R78), and the inspection of a stopped core (R21, R107). -/

namespace Sys2Proof.Machine

/-- The status output's encoding (R14; 92_eei_decisions.md D7). -/
def Status.code : Status → Nat
  | .running => 0
  | .halted => 1
  | .faulted => 2

/-- The three kinds of fault (R78). -/
inductive FaultKind where
  | outOfBounds
  | illegalInstruction
  | invalidRegister
  deriving DecidableEq, Repr

/-- The numeric code of a kind (R78; 92_eei_decisions.md D7). -/
def FaultKind.code : FaultKind → Nat
  | .outOfBounds => 1
  | .illegalInstruction => 2
  | .invalidRegister => 3

/-- The kind of a cause (R78). -/
def Cause.kind : Cause → FaultKind
  | .outOfBounds _ => .outOfBounds
  | .illegalInstruction _ => .illegalInstruction
  | .invalidRegister _ => .invalidRegister

/-- The information a cause records: the address, the opcode byte or the register operand byte
(R15, R78). -/
def Cause.info : Cause → Nat
  | .outOfBounds addr => addr
  | .illegalInstruction op => op.toNat
  | .invalidRegister b => b.toNat

/-- The fault record as the triple `(kind, at, info)` of R15. -/
def FaultRecord.triple (f : FaultRecord) : FaultKind × Nat × Nat := (f.cause.kind, f.atPc, f.cause.info)

/-- What the inspection gives the host (R21): `x[0..7]`, FL, `pc`, `status`, `fault`, `M` and `out`. -/
structure Inspection where
  regs   : Vector Byte 8
  fl     : Byte
  pc     : Nat
  status : Status
  fault  : Option (FaultKind × Nat × Nat)
  mem    : Memory
  out    : List Byte
  deriving DecidableEq, Repr

/-- Inspect the core. The host may do so once the status is not `Running`, and reads nothing while it
is (R21, R41, R107). Reading changes nothing. -/
def inspect (s : State) : Option Inspection :=
  if s.status = .running then none
  else some
    { regs := s.regs, fl := readFlags s, pc := s.pc, status := s.status,
      fault := s.fault.map FaultRecord.triple, mem := s.mem, out := s.out }

end Sys2Proof.Machine
end

