-- ==== Sys2Proof/Safety.lean ====
section
/-! DEFINITION. What a good state is, and how a run ends (R108). -/

namespace Sys2Proof.Machine

/-- The information a fault can record (R15, R78): an address of 256 or 257, an opcode byte that is none
of the four, or a register operand byte of 8 or more. -/
def Cause.legal : Cause → Prop
  | .outOfBounds addr => addr = 256 ∨ addr = 257
  | .illegalInstruction op => op ≠ 0x01 ∧ op ≠ 0x82 ∧ op ≠ 0x47 ∧ op ≠ 0xA2
  | .invalidRegister b => 8 ≤ b.toNat

/-- The invariant of the LS8 core. -/
structure State.Inv (s : State) : Prop where
  /-- Memory has exactly its 256 cells (R23). -/
  memory : s.mem.wf
  /-- The program counter takes the values 0 to 256 (R11). -/
  pcRange : s.pc ≤ 256
  /-- The fault record is not `none` exactly when the status is `Faulted` (R15). -/
  faultedIff : s.status = .faulted ↔ s.fault.isSome = true
  /-- The record names the opcode address `pc` still holds, and its information is one that can occur
  (R15, R84). -/
  record : ∀ f, s.fault = some f → f.atPc = s.pc ∧ f.cause.legal

/-- The run has ended (R108): the first state whose status is not `Running`. -/
def State.ended (s : State) : Prop := s.status ≠ .running

/-- The run has ended normally (R108). -/
def State.endedNormally (s : State) : Prop := s.status = .halted ∧ s.fault = none

/-- The run has failed (R108). -/
def State.failed (s : State) : Prop := s.status = .faulted ∧ s.fault.isSome = true

/-- The steps of a run (R65): `k` steps of the core from a state, ending early at a stop of the model's
own. A state in which the run has ended stays as it is, so the final state is there to be inspected. -/
def runFor : Nat → State → Host.Outcome State Fault Refusal
  | 0, s => .next s
  | k + 1, s =>
    match step s with
    | .next t => runFor k t
    | .fault r => .fault r
    | .refused r => .refused r

/-- Apply a function to the next state of an outcome; a stop stays as it is. -/
def onNext (f : State → State) : Host.Outcome State Fault Refusal → Host.Outcome State Fault Refusal
  | .next s => .next (f s)
  | .fault r => .fault r
  | .refused r => .refused r

end Sys2Proof.Machine
end

