-- ==== Sys2Proof/Certificates/Slice0/Obligations.lean ====
section
/-! DEFINITION. The statements about the LS8 core for the provers, each from the numbered rules of
spec/. -/

open Sys2Proof Sys2Proof.Machine

/-! ## Decoding and the step -/

/-- R54, R60: when the bytes at `pc` decode to an instruction, one step is exactly its execution. The
step adds nothing around `exec`, which holds the advance itself. -/
def Obligations.StepRunsDecodedInstruction : Prop :=
  ∀ (s : State) (op : Byte) (bs : List Byte) (i : Instr),
    s.status = .running →
    memRead s.mem s.pc = .ok op →
    readBytes s.mem (s.pc + 1) (operandCount op) = .ok bs →
    decode (op :: bs) = .ok (i, []) →
    step s = exec i s

/-- Words written out from 30_encoding.md and the examples of 95_test_vectors.md decode to the
instructions they stand for. -/
def Obligations.SpecWordsDecode : Prop :=
  decode [0x01] = .ok (.hlt, []) ∧
  decode [0x82, 0x00, 0x08] = .ok (.ldi 0 8, []) ∧
  decode [0x47, 0x00, 0x01] = .ok (.prn 0, [0x01]) ∧
  decode [0xA2, 0x05, 0x02] = .ok (.mul 5 2, []) ∧
  decode [0x47, 0x08] = .ok (.prn 8, []) ∧
  decode [0x00] = .error (.illegalOpcode 0x00) ∧
  decode [0xFF] = .error (.illegalOpcode 0xFF)

/-- R48: exactly four opcodes, their bytes, operand counts and formats; every other byte is no
opcode. -/
def Obligations.OpcodeMapIsExact : Prop :=
  (∀ rest, decode (0x01 :: rest) = .ok (.hlt, rest)) ∧
  (∀ r i rest, decode (0x82 :: r :: i :: rest) = .ok (.ldi r i, rest)) ∧
  (∀ r rest, decode (0x47 :: r :: rest) = .ok (.prn r, rest)) ∧
  (∀ r q rest, decode (0xA2 :: r :: q :: rest) = .ok (.mul r q, rest)) ∧
  operandCount 0x01 = 0 ∧ operandCount 0x82 = 2 ∧ operandCount 0x47 = 1 ∧ operandCount 0xA2 = 2 ∧
  (∀ op rest, op ≠ 0x01 → op ≠ 0x82 → op ≠ 0x47 → op ≠ 0xA2 →
    decode (op :: rest) = .error (.illegalOpcode op))

/-- R42: `n = opcode[7:6]` operand bytes follow the opcode, at the addresses after it, and nothing but
the opcode byte fixes the length. -/
def Obligations.LengthFromOpcodeAlone : Prop :=
  (∀ op : Byte, operandCount op = ((op >>> 6) &&& 0b11).toNat) ∧
  (∀ op rest i rest', decode (op :: rest) = .ok (i, rest') →
    op :: rest = encode i ++ rest' ∧ (encode i).length = operandCount op + 1) ∧
  (∀ s i k b, fetch s = .ok i → (encode i)[k]? = some b → memRead s.mem (s.pc + k) = .ok b)

/-- R42, R44: decode and encode agree, for every instruction with every operand at every value: a
sequence of bytes decodes to an instruction and some bytes left exactly when it is the instruction's bytes
and those. So no bit of an encoding is dropped, and each word has one meaning. -/
def Obligations.DecodeAndEncodeAgree : Prop :=
  ∀ (i : Instr) (bs rest : List Byte), decode bs = .ok (i, rest) ↔ bs = encode i ++ rest

/-- R49, R80: every opcode byte but the four is illegal: the step raises `IllegalInstruction`, whatever
follows the opcode byte in memory, at whatever address; there are 252 such bytes, 63, 63, 62 and 64 with
operand counts 0 to 3. -/
def Obligations.IllegalOpcodesRaise : Prop :=
  (∀ (s : State) (op : Byte), s.status = .running → memRead s.mem s.pc = .ok op →
    op ≠ 0x01 → op ≠ 0x82 → op ≠ 0x47 → op ≠ 0xA2 →
    step s = .next { s with status := .faulted, fault := some ⟨.illegalInstruction op, s.pc⟩ }) ∧
  (∀ n, n < 4 → ((List.range 256).filter fun k =>
      decide (decodeOpcode (BitVec.ofNat 8 k) = none) && operandCount (BitVec.ofNat 8 k) == n).length =
    [63, 63, 62, 64].getD n 0)

/-! ## Reset, the invariant and the run -/

/-- R98: what reset leaves. The values of the registers, of FL and of memory are the open parameters of
R3, for which the model takes constants without a body (log entries 1 and 2, DESIGN CHOICE); the rest rests
on the spec's decisions D4, D12 and D25. A reset after a run sets the same values and keeps memory. -/
def Obligations.ResetStateValues : Prop :=
  (∀ i : Fin 8, readReg State.reset i = Config.regInit i) ∧
  State.reset.fl = Config.flInit ∧ State.reset.pc = 0 ∧ State.reset.status = .running ∧
  State.reset.fault = none ∧ State.reset.out = [] ∧
  (∀ a : Fin 256, memRead State.reset.mem a.val = .ok (Config.memInit a)) ∧
  (∀ s, applyReset s = { State.reset with mem := s.mem })

/-- The invariant of Safety.lean holds at reset. -/
def Obligations.ResetMeetsInvariant : Prop := State.reset.Inv

/-- Every step keeps the invariant: memory has its 256 cells (R23), `pc` is from 0 to 256 (R11), the
fault record is there exactly in `Faulted` (R15), and it names the opcode address and information that can
occur (R15, R78). In a stopped core `step` answers the unchanged state by log entry 4 (DEDUCED). -/
def Obligations.StepKeepsInvariant : Prop :=
  ∀ s t : State, s.Inv → step s = .next t → t.Inv

/-- From every state that meets the invariant `step` answers a next state: no stop of the model's own is ever
met, and an instruction fault is a next state (R84). In `Halted` and `Faulted` the core takes no step (R14,
R54); that `step` answers the unchanged state there is the model's convention, log entry 4 (DEDUCED). -/
def Obligations.StepAnswersNextState : Prop :=
  ∀ s : State, s.Inv → ∃ t, step s = .next t

/-- R67: every run ends, within 129 steps. The steps counted are the model's, which keep a stopped state as
it is (log entry 4, DEDUCED). -/
def Obligations.RunEndsWithin129Steps : Prop :=
  ∀ s : State, s.Inv → ∃ t, runFor 129 s = .next t ∧ t.status ≠ .running

/-- R14: no step leaves `Halted` or `Faulted`. That `step` then answers the unchanged state is the model's
convention, log entry 4 (DEDUCED). -/
def Obligations.StoppedCoreStaysStopped : Prop :=
  ∀ s : State, s.status = .halted ∨ s.status = .faulted → step s = .next s

/-- R70: HLT is the only transition to `Halted`. -/
def Obligations.OnlyHltHalts : Prop :=
  ∀ s t : State, s.status = .running → step s = .next t → t.status = .halted →
    memRead s.mem s.pc = .ok 0x01 ∧ t = { s with status := .halted }

/-- R62, R64: a step that leaves the core running moves `pc` past the instruction, exactly and with no
wrap; any other step leaves `pc`. -/
def Obligations.AdvanceIsExact : Prop :=
  ∀ (s t : State) (op : Byte), s.status = .running → step s = .next t →
    memRead s.mem s.pc = .ok op →
    (t.status = .running → t.pc = s.pc + operandCount op + 1) ∧
    (t.status ≠ .running → t.pc = s.pc)

/-- R63: no handler writes `pc`, and each says so. -/
def Obligations.HandlersNeverRetarget : Prop :=
  ∀ (s : State) (r q : Fin 8) (v : Byte) (h : Handled),
    h ∈ [handleHlt s, handleLdi r v s, handlePrn r s, handleMul r q s] →
    h.pcSet = false ∧ h.state.pc = s.pc

/-! ## The four instructions -/

/-- R69: HLT, whole: its encoding, its effect in a running core, and that at address 255 it halts as
anywhere, while at `pc = 256` the step faults as any step does. -/
def Obligations.HltStopsTheRun : Prop :=
  (∀ rest, decode (0x01 :: rest) = .ok (.hlt, rest)) ∧
  (∀ s : State, s.status = .running → exec .hlt s = .next { s with status := .halted }) ∧
  (∀ s : State, s.status = .running → memRead s.mem s.pc = .ok 0x01 →
    step s = .next { s with status := .halted }) ∧
  (∀ s : State, s.status = .running → s.pc = 256 →
    step s = .next { s with status := .faulted, fault := some ⟨.outOfBounds 256, 256⟩ })

/-- R71: LDI, whole: its encoding, its effect for every register and immediate, the invalid register, the
last place it fits, and the operand byte beyond memory. -/
def Obligations.LdiLoadsImmediate : Prop :=
  (∀ r v rest, decode (0x82 :: r :: v :: rest) = .ok (.ldi r v, rest)) ∧
  (∀ (s : State) (r v : Byte) (h : r.toNat < 8), s.status = .running →
    exec (.ldi r v) s = .next { s with regs := s.regs.set r.toNat v h, pc := s.pc + 3 }) ∧
  (∀ (s : State) (r v : Byte), s.status = .running → 8 ≤ r.toNat →
    exec (.ldi r v) s =
      .next { s with status := .faulted, fault := some ⟨.invalidRegister r, s.pc⟩ }) ∧
  (∀ (s : State) (r v : Byte), s.status = .running → memRead s.mem s.pc = .ok 0x82 →
    memRead s.mem (s.pc + 1) = .ok r → memRead s.mem (s.pc + 2) = .ok v →
    step s = exec (.ldi r v) s) ∧
  (∀ (s : State) (r v : Byte) (h : r.toNat < 8), s.status = .running → s.pc = 253 →
    memRead s.mem 253 = .ok 0x82 → memRead s.mem 254 = .ok r → memRead s.mem 255 = .ok v →
    ∃ t, t = { s with regs := s.regs.set r.toNat v h, pc := 256 } ∧ step s = .next t ∧
      step t = .next { t with status := .faulted, fault := some ⟨.outOfBounds 256, 256⟩ }) ∧
  (∀ s : State, s.status = .running → memRead s.mem s.pc = .ok 0x82 → s.pc = 255 →
    step s = .next { s with status := .faulted, fault := some ⟨.outOfBounds 256, 255⟩ }) ∧
  (∀ (s : State) (r : Byte), s.status = .running → memRead s.mem s.pc = .ok 0x82 →
    memRead s.mem (s.pc + 1) = .ok r → s.pc = 254 →
    step s = .next { s with status := .faulted, fault := some ⟨.outOfBounds 256, 254⟩ })

/-- R72: PRN, whole: its encoding, its effect for every register (one no instruction has written among
them), the invalid register, the last place it fits, and the operand byte beyond memory. How the host prints
the value is RenderedLineIsDecimal. -/
def Obligations.PrnEmitsRegister : Prop :=
  (∀ r rest, decode (0x47 :: r :: rest) = .ok (.prn r, rest)) ∧
  (∀ (s : State) (r : Byte) (h : r.toNat < 8), s.status = .running →
    exec (.prn r) s = .next { s with out := s.out ++ [s.regs[r.toNat]], pc := s.pc + 2 }) ∧
  (∀ (s : State) (r : Byte), s.status = .running → 8 ≤ r.toNat →
    exec (.prn r) s =
      .next { s with status := .faulted, fault := some ⟨.invalidRegister r, s.pc⟩ }) ∧
  (∀ (s : State) (r : Byte), s.status = .running → memRead s.mem s.pc = .ok 0x47 →
    memRead s.mem (s.pc + 1) = .ok r → step s = exec (.prn r) s) ∧
  (∀ (s : State) (r : Byte) (_ : r.toNat < 8), s.status = .running → s.pc = 254 →
    memRead s.mem 254 = .ok 0x47 → memRead s.mem 255 = .ok r →
    ∃ t, t = { s with out := s.out ++ [s.regs[r.toNat]], pc := 256 } ∧ step s = .next t ∧
      step t = .next { t with status := .faulted, fault := some ⟨.outOfBounds 256, 256⟩ }) ∧
  (∀ (r : Byte) (h : r.toNat < 8), exec (.prn r) State.reset =
    .next { State.reset with out := [Config.regInit ⟨r.toNat, h⟩], pc := 2 }) ∧
  (∀ s : State, s.status = .running → memRead s.mem s.pc = .ok 0x47 → s.pc = 255 →
    step s = .next { s with status := .faulted, fault := some ⟨.outOfBounds 256, 255⟩ })

/-- R75: MUL, whole: its encoding, its effect for every pair of registers (the same one twice among
them), the first invalid register, and the operand byte beyond memory. -/
def Obligations.MulMultipliesRegisters : Prop :=
  (∀ r q rest, decode (0xA2 :: r :: q :: rest) = .ok (.mul r q, rest)) ∧
  (∀ (s : State) (r q : Byte) (hr : r.toNat < 8) (hq : q.toNat < 8), s.status = .running →
    ∃ p : Byte, p.toNat = s.regs[r.toNat].toNat * s.regs[q.toNat].toNat % 256 ∧
      exec (.mul r q) s = .next { s with regs := s.regs.set r.toNat p hr, pc := s.pc + 3 }) ∧
  (∀ (s : State) (r q : Byte), s.status = .running → 8 ≤ r.toNat →
    exec (.mul r q) s =
      .next { s with status := .faulted, fault := some ⟨.invalidRegister r, s.pc⟩ }) ∧
  (∀ (s : State) (r q : Byte), s.status = .running → r.toNat < 8 → 8 ≤ q.toNat →
    exec (.mul r q) s =
      .next { s with status := .faulted, fault := some ⟨.invalidRegister q, s.pc⟩ }) ∧
  (∀ (s : State) (r q : Byte), s.status = .running → memRead s.mem s.pc = .ok 0xA2 →
    memRead s.mem (s.pc + 1) = .ok r → memRead s.mem (s.pc + 2) = .ok q →
    step s = exec (.mul r q) s) ∧
  (∀ s : State, s.status = .running → memRead s.mem s.pc = .ok 0xA2 → s.pc = 255 →
    step s = .next { s with status := .faulted, fault := some ⟨.outOfBounds 256, 255⟩ }) ∧
  (∀ (s : State) (r : Byte), s.status = .running → memRead s.mem s.pc = .ok 0xA2 →
    memRead s.mem (s.pc + 1) = .ok r → s.pc = 254 →
    step s = .next { s with status := .faulted, fault := some ⟨.outOfBounds 256, 254⟩ })

/-- R76: the multiply is the low 8 bits of the exact 16-bit product, commutative in its values but not in
its destination. -/
def Obligations.MultiplyArithmeticLaws : Prop :=
  (∀ a b : Byte, mul8 a b = (a.setWidth 16 * b.setWidth 16).extractLsb' 0 8) ∧
  (∀ a b : Byte, mul8 a b = mul8 b a) ∧
  (∀ (s t u : State) (r q : Byte) (hr : r.toNat < 8) (hq : q.toNat < 8), s.status = .running → r ≠ q →
    exec (.mul r q) s = .next t → exec (.mul q r) s = .next u →
    t.regs[r.toNat] = u.regs[q.toNat] ∧ t.regs[q.toNat] = s.regs[q.toNat] ∧
      u.regs[r.toNat] = s.regs[r.toNat])

/-- R89, R59: while running, an instruction whose register operands all name registers completes without
a fault, and one with any other register operand takes `InvalidRegister`. -/
def Obligations.CompletesExactlyWhenWellFormed : Prop :=
  ∀ (i : Instr) (s : State), s.status = .running →
    (i.wf = true → ∃ t, exec i s = .next t ∧ t.status ≠ .faulted ∧ t.fault = s.fault) ∧
    (i.wf = false → ∃ t b, exec i s = .next t ∧ t.status = .faulted ∧ b ∈ i.registerBytes ∧
      8 ≤ b.toNat ∧ t.fault = some ⟨.invalidRegister b, s.pc⟩)

/-- The frame of LDI and MUL: only the register operand 0 names, `pc`, and at an invalid register the
status and the fault record can change. In a stopped core `exec` is log entry 11 (DEDUCED). -/
def Obligations.RegisterWriteFrame : Prop :=
  ∀ (s t : State) (i : Instr) (r v : Byte), i = .ldi r v ∨ i = .mul r v → exec i s = .next t →
    (∀ j : Fin 8, j.val ≠ r.toNat → readReg t j = readReg s j) ∧
    t.fl = s.fl ∧ t.out = s.out ∧ (∀ a, memRead t.mem a = memRead s.mem a) ∧
    (i.wf = true → t.status = s.status ∧ t.fault = s.fault) ∧
    (i.wf = false → t.regs = s.regs ∧ t.pc = s.pc)

/-- The frame of PRN: only the output log, `pc`, and at an invalid register the status and the fault
record can change. In a stopped core `exec` is log entry 11 (DEDUCED). -/
def Obligations.PrintFrame : Prop :=
  ∀ (s t : State) (r : Byte), exec (.prn r) s = .next t →
    t.regs = s.regs ∧ t.fl = s.fl ∧ (∀ a, memRead t.mem a = memRead s.mem a) ∧
    (r.toNat < 8 → t.status = s.status ∧ t.fault = s.fault) ∧
    (8 ≤ r.toNat → t.out = s.out ∧ t.pc = s.pc)

/-- The frame of HLT: only the status changes. In a stopped core `exec` is log entry 11 (DEDUCED). -/
def Obligations.HaltFrame : Prop :=
  ∀ s t : State, exec .hlt s = .next t →
    t.regs = s.regs ∧ t.fl = s.fl ∧ t.pc = s.pc ∧ t.fault = s.fault ∧ t.out = s.out ∧
    ∀ a, memRead t.mem a = memRead s.mem a

/-- R109: an LDI or MUL followed at once by a MUL or PRN of the same register: the second sees the
first's result. -/
def Obligations.NextInstructionSeesResult : Prop :=
  ∀ (s : State) (r q v : Byte) (hr : r.toNat < 8) (hq : q.toNat < 8), s.status = .running →
    (∃ t u w, exec (.ldi r v) s = .next t ∧
      exec (.prn r) t = .next u ∧ u.out = s.out ++ [v] ∧
      exec (.mul r r) t = .next w ∧ w.regs[r.toNat] = mul8 v v) ∧
    (∃ t u w p, p = mul8 s.regs[r.toNat] s.regs[q.toNat] ∧ exec (.mul r q) s = .next t ∧
      exec (.prn r) t = .next u ∧ u.out = s.out ++ [p] ∧
      exec (.mul r r) t = .next w ∧ w.regs[r.toNat] = mul8 p p)

/-! ## Registers, flags and output -/

/-- R45: a register operand is the whole byte, not masked; a byte of 8 or more names no register, and
every instruction that uses it as a register raises `InvalidRegister` with it in a running core. -/
def Obligations.RegisterOperandIsWholeByte : Prop :=
  (∀ (b : Byte) (h : b.toNat < 8), regOperand b = some ⟨b.toNat, h⟩) ∧
  (∀ b : Byte, 8 ≤ b.toNat → regOperand b = none) ∧
  (∀ (b v : Byte) (s : State) (i : Instr), s.status = .running → 8 ≤ b.toNat →
    i = .ldi b v ∨ i = .prn b ∨ i = .mul b v ∨ (i = .mul v b ∧ v.toNat < 8) →
    exec i s = .next { s with status := .faulted, fault := some ⟨.invalidRegister b, s.pc⟩ })

/-- R7: an instruction neither reads nor writes a register that none of its register operands names: with
another value in such a register it does the same and leaves that value. It holds for R5, R6 and R7 as for
the others (R8). In a stopped core `exec` is log entry 11 (DEDUCED). -/
def Obligations.UnnamedRegisterIsNotUsed : Prop :=
  ∀ (i : Instr) (s : State) (j : Fin 8) (v : Byte), (∀ b ∈ i.registerBytes, b.toNat ≠ j.val) →
    exec i { s with regs := s.regs.set j v } =
      onNext (fun t => { t with regs := t.regs.set j v }) (exec i s)

/-- R10: FL is inert: no step writes it, and it influences nothing. In a stopped core `step` answers the
unchanged state by log entry 4 (DEDUCED). -/
def Obligations.FlagsRegisterIsInert : Prop :=
  (∀ s t : State, step s = .next t → t.fl = s.fl) ∧
  (∀ (s : State) (v : Byte),
    step { s with fl := v } = onNext (fun t => { t with fl := v }) (step s))

/-- R17, R74: a step sends at most one value, and only when it completes a PRN: the value of the register
PRN names. In a stopped core `step` answers the unchanged state by log entry 4 (DEDUCED). -/
def Obligations.OutputGrowsOnlyByPrn : Prop :=
  ∀ s t : State, step s = .next t →
    t.out = s.out ∨
    (∃ (r : Byte) (h : r.toNat < 8), s.status = .running ∧ memRead s.mem s.pc = .ok 0x47 ∧
      memRead s.mem (s.pc + 1) = .ok r ∧ t.status = .running ∧ t.out = s.out ++ [s.regs[r.toNat]])

/-- R73: a value's line is its decimal digits, with no leading zero, and one line feed; the last clause is the
line of R72's example and of E4. That digits are ASCII and a line ends with one line feed is the spec's
decision D10 (log entry 12). -/
def Obligations.RenderedLineIsDecimal : Prop :=
  (∀ v : Byte, renderLine v = decimalDigits v ++ [0x0A] ∧
    (decimalDigits v).foldl (fun n d => 10 * n + (d.toNat - 0x30)) 0 = v.toNat ∧
    (∀ d ∈ decimalDigits v, 0x30 ≤ d.toNat ∧ d.toNat ≤ 0x39) ∧
    ((decimalDigits v).length = 1 ∨ (decimalDigits v).head? ≠ some 0x30)) ∧
  decimalDigits 42 = [0x34, 0x32] ∧ renderLine 42 = [0x34, 0x32, 0x0A]

/-! ## Memory -/

/-- R24: a read in range gives the addressed cell of the 256; a read out of range raises
`OutOfBounds`. -/
def Obligations.MemReadIsRangeChecked : Prop :=
  (∀ (m : Memory) (a : Nat), m.wf → a < 256 → ∃ v, m[a]? = some (a, v) ∧ memRead m a = .ok v) ∧
  (∀ (m : Memory) (a : Nat), 256 ≤ a → memRead m a = .error (.raised (.outOfBounds a)))

/-- R26, with R25's range check: a byte written is read back, every other cell keeps its value, and a write
out of range fails. -/
def Obligations.MemWriteThenRead : Prop :=
  (∀ (m : Memory) (a : Nat) (v : Byte), a < 256 → ∃ m', memWrite m a v = .ok m' ∧
    memRead m' a = .ok v ∧ ∀ b, b ≠ a → memRead m' b = memRead m b) ∧
  (∀ (m : Memory) (a : Nat) (v : Byte), 256 ≤ a → memWrite m a v = .error (.outOfBounds a))

/-- R28, R39: no step writes memory, so memory is constant over a run of any length. Steps counted past the
end of the run keep the state, by log entry 4 (DEDUCED). -/
def Obligations.RunNeverWritesMemory : Prop :=
  ∀ (k : Nat) (s t : State), runFor k s = .next t → t.mem = s.mem

/-! ## Faults -/

/-- R55: the opcode byte at `pc` is read first, so a fault of that read ends the step; with `pc = 256` it
raises `OutOfBounds(256)`. -/
def Obligations.FetchPastMemoryFaults : Prop :=
  (∀ (s : State) (c : Cause), s.status = .running → memRead s.mem s.pc = .error (.raised c) →
    step s = .next { s with status := .faulted, fault := some ⟨c, s.pc⟩ }) ∧
  (∀ s : State, s.status = .running → s.pc = 256 →
    step s = .next { s with status := .faulted, fault := some ⟨.outOfBounds 256, 256⟩ })

/-- R61: a step that raises a fault commits no write but the status and the fault record; `pc` still holds
the opcode's address (R84). The record and the unchanged `pc` are the spec's decision D6. -/
def Obligations.FaultingStepCommitsNothingElse : Prop :=
  ∀ s t : State, s.status = .running → step s = .next t → t.status = .faulted →
    ∃ c : Cause, t = { s with status := .faulted, fault := some ⟨c, s.pc⟩ }

/-- R83: the one fault a step reports, in the spec's order. The order of the operand reads and of the
register checks is the spec's decision D8. -/
def Obligations.FirstFaultIsReported : Prop :=
  ∀ s : State, s.status = .running →
    (s.pc = 256 →
      step s = .next { s with status := .faulted, fault := some ⟨.outOfBounds 256, 256⟩ }) ∧
    (∀ op, memRead s.mem s.pc = .ok op → decodeOpcode op = none →
      step s = .next { s with status := .faulted, fault := some ⟨.illegalInstruction op, s.pc⟩ }) ∧
    (∀ (o : Opcode) (k : Nat), memRead s.mem s.pc = .ok o.byte → 1 ≤ k → k ≤ operandCount o.byte →
      256 ≤ s.pc + k → (∀ j, 1 ≤ j → j < k → ∃ v, memRead s.mem (s.pc + j) = .ok v) →
      step s = .next { s with status := .faulted, fault := some ⟨.outOfBounds (s.pc + k), s.pc⟩ }) ∧
    (∀ (i : Instr) (k : Nat) (b : Byte), memRead s.mem s.pc = .ok i.opcode.byte →
      readBytes s.mem (s.pc + 1) (operandCount i.opcode.byte) = .ok i.operands →
      i.registerBytes[k]? = some b → 8 ≤ b.toNat →
      (∀ j c, j < k → i.registerBytes[j]? = some c → c.toNat < 8) →
      step s = .next { s with status := .faulted, fault := some ⟨.invalidRegister b, s.pc⟩ })

/-- R14, R78: the encodings of the status and of the fault record, which are the spec's decision D7. -/
def Obligations.StatusAndFaultCodes : Prop :=
  Status.running.code = 0 ∧ Status.halted.code = 1 ∧ Status.faulted.code = 2 ∧
  (∀ a p, (FaultRecord.mk (.outOfBounds a) p).triple = (.outOfBounds, p, a)) ∧
  (∀ op p, (FaultRecord.mk (.illegalInstruction op) p).triple = (.illegalInstruction, p, op.toNat)) ∧
  (∀ b p, (FaultRecord.mk (.invalidRegister b) p).triple = (.invalidRegister, p, b.toNat)) ∧
  FaultKind.outOfBounds.code = 1 ∧ FaultKind.illegalInstruction.code = 2 ∧
  FaultKind.invalidRegister.code = 3

/-! ## The host's side -/

/-- R21, R41: the host inspects the core only once it has stopped, and then sees every piece of state. -/
def Obligations.InspectOnlyWhenStopped : Prop :=
  ∀ s : State,
    (s.status = .running → inspect s = none) ∧
    (s.status ≠ .running → ∃ v, inspect s = some v ∧ v.regs = s.regs ∧ v.fl = s.fl ∧ v.pc = s.pc ∧
      v.status = s.status ∧ v.fault = s.fault.map FaultRecord.triple ∧ v.mem = s.mem ∧ v.out = s.out)

/-- R100, R102: the launch state is the reset state with the image at address 0 over what memory held. -/
def Obligations.LaunchPlacesImage : Prop :=
  ∀ (image : List Byte) (s : State), s.mem.wf → image.length ≤ 256 →
    ∃ t, launch image s = .ok t ∧ t = { State.reset with mem := t.mem } ∧ t.mem.wf ∧
      (∀ a v, image[a]? = some v → memRead t.mem a = .ok v) ∧
      (∀ a, image.length ≤ a → memRead t.mem a = memRead s.mem a)

/-- R103: an image of more than 256 bytes is refused as a whole, at the write to 256 (the spec's decision
D13). -/
def Obligations.OversizeImageIsRefused : Prop :=
  ∀ (image : List Byte) (s : State), 256 < image.length →
    launch image s = .error (.imageTooLong (.outOfBounds 256))

/-- R66, R99: launching the same image again after a run gives the same launch state, so the same run. Steps
counted past the end of the run keep the state, by log entry 4 (DEDUCED). -/
def Obligations.RelaunchReproducesTheRun : Prop :=
  ∀ (image : List Byte) (s l t : State) (k : Nat), launch image s = .ok l → runFor k l = .next t →
    launch image t = .ok l

/-- R53: the text of an image, one base-2 byte a line, is read back as the image. That a line ends at a line
feed is the model's choice, log entry 7 (DESIGN CHOICE). -/
def Obligations.ImageTextReadsBack : Prop :=
  ∀ image : List Byte, parseImage (imageText image) = .ok image

/-- R104, R53: a file that does not exist, and a file with a line that is no base-2 byte, are refused (the
spec's decision D14). -/
def Obligations.BadImageFilesAreRefused : Prop :=
  (∀ s : State, launchFile none s = .error .fileNotFound) ∧
  (∀ (l : List Char) (c : Char), c ∈ stripSpace (stripComment l) → c ≠ '0' → c ≠ '1' →
    parseLine l = .error .badLine) ∧
  (∀ (l : List Char) (v : Nat), binaryValue 0 (stripSpace (stripComment l)) = some v → 256 ≤ v →
    parseLine l = .error .badLine) ∧
  (∀ (text : List Char) (s : State),
    (∃ ls₁ l ls₂ bs, splitLines text = ls₁ ++ l :: ls₂ ∧ parseLines ls₁ = .ok bs ∧
      parseLine l = .error .badLine) →
    launchFile (some text) s = .error .badLine)

/-! ## The model's own convention -/

/-- The model's convention, log entry 11 (DEDUCED), and no rule of the spec: outside `Running`, where no step
calls it, `exec` runs the handler without the advance (the condition of R62), and takes `InvalidRegister` as
in a running core. -/
def Obligations.ExecOutsideRunning : Prop :=
  ∀ s : State, s.status ≠ .running →
    exec .hlt s = .next { s with status := .halted } ∧
    (∀ (r v : Byte) (h : r.toNat < 8),
      exec (.ldi r v) s = .next { s with regs := s.regs.set r.toNat v h }) ∧
    (∀ (r : Byte) (_ : r.toNat < 8),
      exec (.prn r) s = .next { s with out := s.out ++ [s.regs[r.toNat]] }) ∧
    (∀ (r q : Byte) (hr : r.toNat < 8) (_ : q.toNat < 8), exec (.mul r q) s =
      .next { s with regs := s.regs.set r.toNat (mul8 s.regs[r.toNat] s.regs[q.toNat]) hr }) ∧
    (∀ (b v : Byte) (i : Instr), 8 ≤ b.toNat →
      i = .ldi b v ∨ i = .prn b ∨ i = .mul b v ∨ (i = .mul v b ∧ v.toNat < 8) →
      exec i s = .next { s with status := .faulted, fault := some ⟨.invalidRegister b, s.pc⟩ })
end

