-- ==== Sys2Proof/Laws/Decode.lean ====
section
/-! SUPPORT. The small lemmas of the decoder. -/

namespace Sys2Proof

@[simp] theorem decodeOpcode_byte (o : Opcode) : decodeOpcode o.byte = some o := by
  cases o <;> rfl

/-- A byte that decodes to an opcode is that opcode's byte. -/
theorem decodeOpcode_some {op : Byte} {o : Opcode} (h : decodeOpcode op = some o) : op = o.byte := by
  simp only [decodeOpcode, opcodeTable, List.lookup] at h
  split at h
  · rename_i he; injection h with h; subst h; exact eq_of_beq he
  · split at h
    · rename_i he; injection h with h; subst h; exact eq_of_beq he
    · split at h
      · rename_i he; injection h with h; subst h; exact eq_of_beq he
      · split at h
        · rename_i he; injection h with h; subst h; exact eq_of_beq he
        · cases h

/-- A byte decodes to no opcode exactly when it is none of the four of R48. -/
theorem decodeOpcode_none {op : Byte} :
    decodeOpcode op = none ↔ op ≠ 0x01 ∧ op ≠ 0x82 ∧ op ≠ 0x47 ∧ op ≠ 0xA2 := by
  constructor
  · intro h
    refine ⟨?_, ?_, ?_, ?_⟩ <;> rintro rfl <;> cases h
  · rintro ⟨h1, h2, h3, h4⟩
    cases hd : decodeOpcode op with
    | none => rfl
    | some o =>
      have := decodeOpcode_some hd
      cases o <;> contradiction

@[simp] theorem operandCount_hlt : operandCount Opcode.hlt.byte = 0 := rfl
@[simp] theorem operandCount_hlt_word : operandCount 1#8 = 0 := rfl
@[simp] theorem operandCount_ldi : operandCount Opcode.ldi.byte = 2 := rfl
@[simp] theorem operandCount_ldi_word : operandCount 130#8 = 2 := rfl
@[simp] theorem operandCount_prn : operandCount Opcode.prn.byte = 1 := rfl
@[simp] theorem operandCount_prn_word : operandCount 71#8 = 1 := rfl
@[simp] theorem operandCount_mul : operandCount Opcode.mul.byte = 2 := rfl
@[simp] theorem operandCount_mul_word : operandCount 162#8 = 2 := rfl

/-- A defined opcode with exactly its operand bytes decodes, with no byte left. -/
theorem decode_defined {op : Byte} {o : Opcode} {bs : List Byte} (ho : decodeOpcode op = some o)
    (hl : bs.length = operandCount op) :
    ∃ i : Instr, decode (op :: bs) = .ok (i, []) ∧ i.opcode = o ∧ op :: bs = encode i := by
  obtain rfl := decodeOpcode_some ho
  cases o with
  | hlt =>
    obtain rfl : bs = [] := List.eq_nil_of_length_eq_zero hl
    exact ⟨.hlt, rfl, rfl, rfl⟩
  | ldi =>
    obtain ⟨r, i, rfl⟩ : ∃ r i, bs = [r, i] := by
      match bs, hl with
      | [r, i], _ => exact ⟨r, i, rfl⟩
    exact ⟨.ldi r i, rfl, rfl, rfl⟩
  | prn =>
    obtain ⟨r, rfl⟩ : ∃ r, bs = [r] := by
      match bs, hl with
      | [r], _ => exact ⟨r, rfl⟩
    exact ⟨.prn r, rfl, rfl, rfl⟩
  | mul =>
    obtain ⟨r, q, rfl⟩ : ∃ r q, bs = [r, q] := by
      match bs, hl with
      | [r, q], _ => exact ⟨r, q, rfl⟩
    exact ⟨.mul r q, rfl, rfl, rfl⟩

end Sys2Proof
end

