-- ==== Sys2Proof/Laws/Memory.lean ====
section
/-! SUPPORT. What the memory operations do, and that each keeps the canonical form. -/

namespace Sys2Proof.Machine

/-! ## Listed cells -/

@[simp] theorem lookupCell_setCell_same (m : Memory) (a : Nat) (v : Byte) :
    lookupCell (setCell m a v) a = some v := by
  induction m with
  | nil => simp [setCell, lookupCell]
  | cons c m ih =>
    obtain ⟨b, w⟩ := c
    simp only [setCell]
    split
    · simp [lookupCell]
    · split
      · simp [lookupCell]
      · simp [lookupCell, *]

theorem lookupCell_setCell_other (m : Memory) (a b : Nat) (v : Byte) (h : b ≠ a) :
    lookupCell (setCell m a v) b = lookupCell m b := by
  induction m with
  | nil => simp [setCell, lookupCell, h]
  | cons c m ih =>
    obtain ⟨d, w⟩ := c
    simp only [setCell]
    split
    · simp [lookupCell, h]
    · split
      · rename_i hd
        simp [lookupCell, h, ← hd]
      · simp [lookupCell, ih]

theorem lookupCell_isSome (m : Memory) (a : Nat) : (lookupCell m a).isSome ↔ a ∈ m.map Prod.fst := by
  induction m with
  | nil => simp [lookupCell]
  | cons c m ih =>
    obtain ⟨b, w⟩ := c
    by_cases hb : a = b
    · simp [lookupCell, hb]
    · simpa [lookupCell, hb] using ih

/-- Writing a listed address of a rising memory lists the same addresses. -/
theorem setCell_keys (m : Memory) (a : Nat) (v : Byte) (hs : (m.map Prod.fst).Pairwise (· < ·))
    (ha : a ∈ m.map Prod.fst) : (setCell m a v).map Prod.fst = m.map Prod.fst := by
  induction m with
  | nil => simp at ha
  | cons c m ih =>
    obtain ⟨b, w⟩ := c
    simp only [List.map_cons, List.pairwise_cons, List.mem_cons] at hs ha
    simp only [setCell]
    split
    · rcases ha with rfl | ha
      · omega
      · have := hs.1 a ha
        omega
    · split
      · simp [*]
      · rcases ha with rfl | ha
        · contradiction
        · simp [ih hs.2 ha]

/-! ## The canonical form -/

theorem Memory.init_wf : Memory.init.wf := by
  simp [Memory.wf, Memory.init, List.map_map, Function.comp_def]

theorem Memory.wf.mem_keys {m : Memory} (h : m.wf) {a : Nat} : a ∈ m.map Prod.fst ↔ a < 256 := by
  rw [h, List.mem_range]

theorem setCell_wf {m : Memory} (h : m.wf) {a : Nat} (ha : a < 256) (v : Byte) : (setCell m a v).wf := by
  have hs : (m.map Prod.fst).Pairwise (· < ·) := by
    rw [h]
    exact List.pairwise_lt_range
  exact (setCell_keys m a v hs (h.mem_keys.2 ha)).trans h

/-- A write that succeeds was in range, and it keeps the canonical form. -/
theorem memWrite_ok {m m' : Memory} {a : Nat} {v : Byte} (h : memWrite m a v = .ok m') :
    a < 256 ∧ m' = setCell m a v := by
  by_cases ha : a < 256
  · simp [memWrite, memSize, ha] at h
    exact ⟨ha, h.symm⟩
  · simp [memWrite, memSize, ha] at h

theorem memWrite_wf {m m' : Memory} {a : Nat} {v : Byte} (h : m.wf) (hw : memWrite m a v = .ok m') :
    m'.wf := by
  obtain ⟨ha, rfl⟩ := memWrite_ok hw
  exact setCell_wf h ha v

theorem writeBytes_wf {m m' : Memory} {a : Nat} {vs : List Byte} (h : m.wf)
    (hw : writeBytes m a vs = .ok m') : m'.wf := by
  induction vs generalizing m a with
  | nil =>
    injection hw with hw
    exact hw ▸ h
  | cons v vs ih =>
    simp only [writeBytes] at hw
    split at hw
    · cases hw
    · exact ih (memWrite_wf h ‹_›) hw

theorem placeBytes_wf {m : Memory} {a : Nat} {vs : List Byte} (h : m.wf) : (placeBytes m a vs).wf := by
  induction vs generalizing m a with
  | nil => exact h
  | cons v vs ih =>
    simp only [placeBytes]
    split
    · exact h
    · exact ih (memWrite_wf h ‹_›)

theorem reset_mem_wf : State.reset.mem.wf := Memory.init_wf

/-! ## Reads -/

/-- Everything a read can answer. -/
theorem memRead_cases (m : Memory) (a : Nat) :
    (∃ v, a < 256 ∧ lookupCell m a = some v ∧ memRead m a = .ok v) ∨
    (a < 256 ∧ lookupCell m a = none ∧ memRead m a = .error (.noCell a)) ∨
    (256 ≤ a ∧ memRead m a = .error (.raised (.outOfBounds a))) := by
  simp only [memRead, memSize]
  by_cases ha : a < 256
  · cases hl : lookupCell m a with
    | some v => exact .inl ⟨v, ha, rfl, by simp [ha]⟩
    | none => exact .inr (.inl ⟨ha, rfl, by simp [ha]⟩)
  · exact .inr (.inr ⟨by omega, by simp [ha]⟩)

theorem memRead_outOfBounds (m : Memory) {a : Nat} (h : 256 ≤ a) :
    memRead m a = .error (.raised (.outOfBounds a)) := by
  have : ¬ a < 256 := by omega
  simp [memRead, memSize, this]

theorem memRead_ok_lt {m : Memory} {a : Nat} {v : Byte} (h : memRead m a = .ok v) : a < 256 := by
  by_contra hc
  rw [memRead_outOfBounds m (by omega)] at h
  cases h

/-- In a canonical memory every address from 0 to 255 reads as a byte. -/
theorem memRead_total {m : Memory} (h : m.wf) {a : Nat} (ha : a < 256) : ∃ v, memRead m a = .ok v := by
  have hs := (lookupCell_isSome m a).2 (h.mem_keys.2 ha)
  obtain ⟨v, hv⟩ := Option.isSome_iff_exists.1 hs
  exact ⟨v, by simp [memRead, memSize, ha, hv]⟩

/-- In a canonical memory the only read that fails is one out of range. -/
theorem memRead_error {m : Memory} (h : m.wf) {a : Nat} {e : Stop} (he : memRead m a = .error e) :
    256 ≤ a ∧ e = .raised (.outOfBounds a) := by
  by_cases ha : a < 256
  · obtain ⟨v, hv⟩ := memRead_total h ha
    rw [hv] at he
    cases he
  · rw [memRead_outOfBounds m (by omega)] at he
    injection he with he
    exact ⟨by omega, he.symm⟩

/-- Each byte that was read is the one at its own address. -/
theorem readBytes_get {m : Memory} {a n k : Nat} {bs : List Byte} {b : Byte}
    (h : readBytes m a n = .ok bs) (hk : bs[k]? = some b) : memRead m (a + k) = .ok b := by
  induction n generalizing a bs k with
  | zero => injection h with h; subst h; simp at hk
  | succ n ih =>
    simp only [readBytes] at h
    split at h
    · cases h
    · rename_i v hv
      split at h
      · cases h
      · rename_i vs hvs
        injection h with h
        subst h
        cases k with
        | zero =>
          simp only [List.getElem?_cons_zero, Option.some.injEq] at hk
          exact hk ▸ hv
        | succ k =>
          rw [show a + (k + 1) = a + 1 + k by omega]
          exact ih hvs (by simpa using hk)

/-- Everything reading `n` bytes can do wrong: the first address that fails, from `a` on, is what is
reported. -/
theorem readBytes_error {m : Memory} {a n : Nat} {e : Stop} (h : readBytes m a n = .error e) :
    ∃ k, k < n ∧ memRead m (a + k) = .error e ∧ ∀ j, j < k → ∃ v, memRead m (a + j) = .ok v := by
  induction n generalizing a with
  | zero => cases h
  | succ n ih =>
    simp only [readBytes] at h
    split at h
    · rename_i e' he
      injection h with h
      subst h
      exact ⟨0, by omega, he, fun j hj => by omega⟩
    · rename_i v hv
      split at h
      · rename_i e' he
        injection h with h
        subst h
        obtain ⟨k, hk, hr, hlow⟩ := ih he
        refine ⟨k + 1, by omega, by rwa [show a + (k + 1) = a + 1 + k by omega], fun j hj => ?_⟩
        cases j with
        | zero => exact ⟨v, hv⟩
        | succ j =>
          rw [show a + (j + 1) = a + 1 + j by omega]
          exact hlow j (by omega)
      · cases h

theorem readBytes_length {m : Memory} {a n : Nat} {bs : List Byte} (h : readBytes m a n = .ok bs) :
    bs.length = n := by
  induction n generalizing a bs with
  | zero => injection h with h; subst h; rfl
  | succ n ih =>
    simp only [readBytes] at h
    split at h
    · cases h
    · split at h
      · cases h
      · rename_i vs hvs
        injection h with h
        subst h
        simp [ih hvs]

theorem readBytes_range {m : Memory} {a n : Nat} {bs : List Byte} (h : readBytes m a n = .ok bs)
    (hn : 0 < n) : a + n ≤ 256 := by
  induction n generalizing a bs with
  | zero => omega
  | succ n ih =>
    simp only [readBytes] at h
    split at h
    · cases h
    · rename_i v hv
      have hlt := memRead_ok_lt hv
      split at h
      · cases h
      · rename_i vs hvs
        by_cases h0 : n = 0
        · omega
        · have := ih hvs (by omega)
          omega

end Sys2Proof.Machine
end

