-- ==== Sys2Proof/Laws/State.lean ====
section
/-! SUPPORT. What each state update does to each field of State, one lemma per field and update. -/

namespace Sys2Proof.Machine

/-! ## writeReg -/

@[simp] theorem writeReg_regs (s : State) (i : Fin 8) (v : Byte) : (writeReg s i v).regs = s.regs.set i v := rfl
@[simp] theorem writeReg_fl (s : State) (i : Fin 8) (v : Byte) : (writeReg s i v).fl = s.fl := rfl
@[simp] theorem writeReg_pc (s : State) (i : Fin 8) (v : Byte) : (writeReg s i v).pc = s.pc := rfl
@[simp] theorem writeReg_status (s : State) (i : Fin 8) (v : Byte) : (writeReg s i v).status = s.status := rfl
@[simp] theorem writeReg_fault (s : State) (i : Fin 8) (v : Byte) : (writeReg s i v).fault = s.fault := rfl
@[simp] theorem writeReg_mem (s : State) (i : Fin 8) (v : Byte) : (writeReg s i v).mem = s.mem := rfl
@[simp] theorem writeReg_out (s : State) (i : Fin 8) (v : Byte) : (writeReg s i v).out = s.out := rfl

/-! ## emit -/

@[simp] theorem emit_regs (s : State) (v : Byte) : (emit s v).regs = s.regs := rfl
@[simp] theorem emit_fl (s : State) (v : Byte) : (emit s v).fl = s.fl := rfl
@[simp] theorem emit_pc (s : State) (v : Byte) : (emit s v).pc = s.pc := rfl
@[simp] theorem emit_status (s : State) (v : Byte) : (emit s v).status = s.status := rfl
@[simp] theorem emit_fault (s : State) (v : Byte) : (emit s v).fault = s.fault := rfl
@[simp] theorem emit_mem (s : State) (v : Byte) : (emit s v).mem = s.mem := rfl
@[simp] theorem emit_out (s : State) (v : Byte) : (emit s v).out = s.out ++ [v] := rfl

/-! ## halt -/

@[simp] theorem halt_regs (s : State) : (halt s).regs = s.regs := rfl
@[simp] theorem halt_fl (s : State) : (halt s).fl = s.fl := rfl
@[simp] theorem halt_pc (s : State) : (halt s).pc = s.pc := rfl
@[simp] theorem halt_status (s : State) : (halt s).status = .halted := rfl
@[simp] theorem halt_fault (s : State) : (halt s).fault = s.fault := rfl
@[simp] theorem halt_mem (s : State) : (halt s).mem = s.mem := rfl
@[simp] theorem halt_out (s : State) : (halt s).out = s.out := rfl

/-! ## setPc -/

@[simp] theorem setPc_regs (s : State) (p : Nat) : (setPc s p).regs = s.regs := rfl
@[simp] theorem setPc_fl (s : State) (p : Nat) : (setPc s p).fl = s.fl := rfl
@[simp] theorem setPc_pc (s : State) (p : Nat) : (setPc s p).pc = p := rfl
@[simp] theorem setPc_status (s : State) (p : Nat) : (setPc s p).status = s.status := rfl
@[simp] theorem setPc_fault (s : State) (p : Nat) : (setPc s p).fault = s.fault := rfl
@[simp] theorem setPc_mem (s : State) (p : Nat) : (setPc s p).mem = s.mem := rfl
@[simp] theorem setPc_out (s : State) (p : Nat) : (setPc s p).out = s.out := rfl

/-! ## raise -/

@[simp] theorem raise_regs (c : Cause) (s : State) : (raise c s).regs = s.regs := rfl
@[simp] theorem raise_fl (c : Cause) (s : State) : (raise c s).fl = s.fl := rfl
@[simp] theorem raise_pc (c : Cause) (s : State) : (raise c s).pc = s.pc := rfl
@[simp] theorem raise_status (c : Cause) (s : State) : (raise c s).status = .faulted := rfl
@[simp] theorem raise_fault (c : Cause) (s : State) : (raise c s).fault = some { cause := c, atPc := s.pc } := rfl
@[simp] theorem raise_mem (c : Cause) (s : State) : (raise c s).mem = s.mem := rfl
@[simp] theorem raise_out (c : Cause) (s : State) : (raise c s).out = s.out := rfl

/-! ## applyReset -/

@[simp] theorem applyReset_regs (s : State) : (applyReset s).regs = State.reset.regs := rfl
@[simp] theorem applyReset_fl (s : State) : (applyReset s).fl = State.reset.fl := rfl
@[simp] theorem applyReset_pc (s : State) : (applyReset s).pc = State.reset.pc := rfl
@[simp] theorem applyReset_status (s : State) : (applyReset s).status = State.reset.status := rfl
@[simp] theorem applyReset_fault (s : State) : (applyReset s).fault = State.reset.fault := rfl
@[simp] theorem applyReset_mem (s : State) : (applyReset s).mem = s.mem := rfl
@[simp] theorem applyReset_out (s : State) : (applyReset s).out = State.reset.out := rfl

/-! ## State.withFetchWord -/

@[simp] theorem withFetchWord_regs (s : State) (nbits w : Nat) :
    (s.withFetchWord nbits w).regs = s.regs := rfl
@[simp] theorem withFetchWord_fl (s : State) (nbits w : Nat) :
    (s.withFetchWord nbits w).fl = s.fl := rfl
@[simp] theorem withFetchWord_pc (s : State) (nbits w : Nat) :
    (s.withFetchWord nbits w).pc = s.pc := rfl
@[simp] theorem withFetchWord_status (s : State) (nbits w : Nat) :
    (s.withFetchWord nbits w).status = .running := rfl
@[simp] theorem withFetchWord_fault (s : State) (nbits w : Nat) :
    (s.withFetchWord nbits w).fault = none := rfl
@[simp] theorem withFetchWord_mem (s : State) (nbits w : Nat) :
    (s.withFetchWord nbits w).mem = placeBytes s.mem s.pc (tableBytes nbits w) := rfl
@[simp] theorem withFetchWord_out (s : State) (nbits w : Nat) :
    (s.withFetchWord nbits w).out = s.out := rfl

/-! ## Reading a register after a write -/

@[simp] theorem readReg_writeReg_same (s : State) (i : Fin 8) (v : Byte) :
    readReg (writeReg s i v) i = v := by
  simp [readReg]

theorem readReg_writeReg_other (s : State) (i j : Fin 8) (v : Byte) (h : j ≠ i) :
    readReg (writeReg s i v) j = readReg s j := by
  have h' : i.val ≠ j.val := fun e => h (Fin.ext e.symm)
  simp [readReg, Vector.getElem_set_ne _ _ h']

end Sys2Proof.Machine
end

