-- ==== Sys2Proof/Laws/Ops.lean ====
section
/-! SUPPORT. What each shared operation can do, said once: register operands, the end of a step, the
fetch and the step. -/

namespace Sys2Proof.Machine

/-! ## Operands and the end of a step -/

theorem regOperand_some {b : Byte} (h : b.toNat < 8) : regOperand b = some ⟨b.toNat, h⟩ := by
  simp [regOperand, h]

theorem regOperand_none {b : Byte} (h : 8 ≤ b.toNat) : regOperand b = none := by
  have : ¬ b.toNat < 8 := by omega
  simp [regOperand, this]

theorem withReg_valid {b : Byte} (h : b.toNat < 8) (s : State)
    (k : Fin 8 → Host.Outcome State Fault Refusal) : withReg b s k = k ⟨b.toNat, h⟩ := by
  simp [withReg, regOperand_some h]

theorem withReg_invalid {b : Byte} (h : 8 ≤ b.toNat) (s : State)
    (k : Fin 8 → Host.Outcome State Fault Refusal) :
    withReg b s k = .next (raise (.invalidRegister b) s) := by
  simp [withReg, regOperand_none h]

/-- Everything a register check can do. -/
theorem withReg_cases (b : Byte) (s : State) (k : Fin 8 → Host.Outcome State Fault Refusal) :
    (∃ h : b.toNat < 8, withReg b s k = k ⟨b.toNat, h⟩) ∨
    (8 ≤ b.toNat ∧ withReg b s k = .next (raise (.invalidRegister b) s)) := by
  by_cases h : b.toNat < 8
  · exact .inl ⟨h, withReg_valid h s k⟩
  · exact .inr ⟨by omega, withReg_invalid (by omega) s k⟩

theorem finish_running {n : Nat} {h : Handled} (hs : h.state.status = .running) (hp : h.pcSet = false) :
    finish n h = .next (setPc h.state (h.state.pc + n + 1)) := by
  simp [finish, hs, hp]

theorem finish_stopped {n : Nat} {h : Handled} (hs : h.state.status ≠ .running) :
    finish n h = .next h.state := by
  simp [finish, hs]

/-- The end of a step changes nothing but `pc`. -/
theorem finish_next {n : Nat} {h : Handled} {t : State} (hf : finish n h = .next t) :
    ∃ p, t = setPc h.state p := by
  unfold finish at hf
  split at hf
  · injection hf with hf
    exact ⟨_, hf.symm⟩
  · injection hf with hf
    exact ⟨h.state.pc, hf.symm⟩

/-! ## Execution -/

/-- Everything an instruction can do: take `InvalidRegister` for one of its register operands, halt, or
end a step after one register write or one output value, not having written `pc`. -/
theorem exec_cases (i : Instr) (s : State) :
    (∃ b, b ∈ i.registerBytes ∧ 8 ≤ b.toNat ∧ exec i s = .next (raise (.invalidRegister b) s)) ∨
    (i = .hlt ∧ exec i s = .next (halt s)) ∨
    (∃ h : Handled, exec i s = finish i.count h ∧ h.pcSet = false ∧ 1 ≤ i.count ∧
      ((∃ r v, h.state = writeReg s r v) ∨ (∃ r, h.state = emit s (readReg s r)))) := by
  cases i with
  | hlt => exact .inr (.inl ⟨rfl, by simp [exec, execHlt, finish, handleHlt]⟩)
  | ldi r v =>
    rcases withReg_cases r s (fun d => finish (operandCount Opcode.ldi.byte) (handleLdi d v s)) with
      ⟨h, hk⟩ | ⟨h, hk⟩
    · exact .inr (.inr ⟨_, hk, rfl, by simp [Instr.count, Instr.opcode], .inl ⟨_, _, rfl⟩⟩)
    · exact .inl ⟨r, by simp [Instr.registerBytes], h, hk⟩
  | prn r =>
    rcases withReg_cases r s (fun d => finish (operandCount Opcode.prn.byte) (handlePrn d s)) with
      ⟨h, hk⟩ | ⟨h, hk⟩
    · exact .inr (.inr ⟨_, hk, rfl, by simp [Instr.count, Instr.opcode], .inr ⟨_, rfl⟩⟩)
    · exact .inl ⟨r, by simp [Instr.registerBytes], h, hk⟩
  | mul r q =>
    rcases withReg_cases r s (fun d => withReg q s fun e =>
      finish (operandCount Opcode.mul.byte) (handleMul d e s)) with ⟨h, hk⟩ | ⟨h, hk⟩
    · rcases withReg_cases q s (fun e =>
        finish (operandCount Opcode.mul.byte) (handleMul ⟨_, h⟩ e s)) with ⟨h', hk'⟩ | ⟨h', hk'⟩
      · exact .inr (.inr ⟨_, hk.trans hk', rfl, by simp [Instr.count, Instr.opcode], .inl ⟨_, _, rfl⟩⟩)
      · exact .inl ⟨q, by simp [Instr.registerBytes], h', hk.trans hk'⟩
    · exact .inl ⟨r, by simp [Instr.registerBytes], h, hk⟩

/-! ## The fetch -/

/-- Everything the fetch can do, in the order of R54: the opcode read fails, the opcode is illegal, an
operand read fails, or the instruction is there. -/
theorem fetch_cases (s : State) :
    (∃ e, memRead s.mem s.pc = .error e ∧ fetch s = .error e) ∨
    (∃ op, memRead s.mem s.pc = .ok op ∧ decodeOpcode op = none ∧
      fetch s = .error (.raised (.illegalInstruction op))) ∨
    (∃ (o : Opcode) (e : Stop), memRead s.mem s.pc = .ok o.byte ∧
      readBytes s.mem (s.pc + 1) (operandCount o.byte) = .error e ∧ fetch s = .error e) ∨
    (∃ i : Instr, memRead s.mem s.pc = .ok i.opcode.byte ∧
      readBytes s.mem (s.pc + 1) (operandCount i.opcode.byte) = .ok i.operands ∧ fetch s = .ok i) := by
  cases hop : memRead s.mem s.pc with
  | error e => exact .inl ⟨e, rfl, by simp [fetch, hop]⟩
  | ok op =>
    cases hd : decodeOpcode op with
    | none => exact .inr (.inl ⟨op, rfl, hd, by simp [fetch, hop, hd]⟩)
    | some o =>
      obtain rfl := decodeOpcode_some hd
      cases hb : readBytes s.mem (s.pc + 1) (operandCount o.byte) with
      | error e => exact .inr (.inr (.inl ⟨o, e, rfl, hb, by simp [fetch, hop, hb]⟩))
      | ok bs =>
        obtain ⟨i, hi, rfl, henc⟩ := decode_defined hd (readBytes_length hb)
        have hbs : bs = i.operands := by
          simpa [encode] using henc
        exact .inr (.inr (.inr ⟨i, rfl, hbs ▸ hb, by simp [fetch, hop, hb, hi]⟩))

/-- The fetch gives the instruction whose bytes stand at `pc`. -/
theorem fetch_at {s : State} {i : Instr} (hop : memRead s.mem s.pc = .ok i.opcode.byte)
    (hbs : readBytes s.mem (s.pc + 1) i.count = .ok i.operands) : fetch s = .ok i := by
  cases i <;> simp_all [fetch, Instr.count, Instr.opcode, Instr.operands, decode, decodeOperands]

/-- The bytes of a fetched instruction stand at `pc`, inside memory. -/
theorem fetch_ok {s : State} {i : Instr} (h : fetch s = .ok i) :
    memRead s.mem s.pc = .ok i.opcode.byte ∧ readBytes s.mem (s.pc + 1) i.count = .ok i.operands ∧
      s.pc + i.count + 1 ≤ 256 := by
  rcases fetch_cases s with ⟨e, _, h'⟩ | ⟨op, _, _, h'⟩ | ⟨o, e, _, _, h'⟩ | ⟨j, hop, hbs, h'⟩
  all_goals rw [h'] at h
  · cases h
  · cases h
  · cases h
  · injection h with h
    subst h
    have hlt := memRead_ok_lt hop
    refine ⟨hop, hbs, ?_⟩
    by_cases h0 : j.count = 0
    · omega
    · have := readBytes_range hbs (by simpa [Instr.count] using Nat.pos_of_ne_zero h0)
      simp only [Instr.count]
      omega

/-! ## The step -/

theorem step_running {s : State} (h : s.status = .running) :
    step s = match fetch s with
      | .ok i => exec i s
      | .error e => stopFetch e s := by
  cases hf : fetch s <;> simp [step, h, hf]

theorem step_stopped {s : State} (h : s.status ≠ .running) : step s = .next s := by
  unfold step
  cases hs : s.status <;> simp_all

/-- Everything a step can do. -/
theorem step_cases (s : State) :
    (s.status ≠ .running ∧ step s = .next s) ∨
    (s.status = .running ∧ ∃ i, fetch s = .ok i ∧ step s = exec i s) ∨
    (s.status = .running ∧ ∃ c, fetch s = .error (.raised c) ∧ step s = .next (raise c s)) ∨
    (s.status = .running ∧ ∃ a, fetch s = .error (.noCell a) ∧ step s = .fault (.missingCell a)) := by
  by_cases h : s.status = .running
  · have hs := step_running h
    cases hf : fetch s with
    | ok i => exact .inr (.inl ⟨h, i, rfl, by simp [hs, hf]⟩)
    | error e =>
      cases e with
      | raised c => exact .inr (.inr (.inl ⟨h, c, rfl, by simp [hs, hf, stopFetch]⟩))
      | noCell a => exact .inr (.inr (.inr ⟨h, a, rfl, by simp [hs, hf, stopFetch]⟩))
  · exact .inl ⟨h, step_stopped h⟩

end Sys2Proof.Machine
end

