-- ==== Sys2Proof/Laws/PerInstr.lean ====
section
/-! SUPPORT. Statements about every instruction as syntax, one lemma per constructor. -/

namespace Sys2Proof.Laws

/-- The bytes of an instruction are the opcode byte and as many operand bytes as the opcode's top two
bits say (R42). -/
def EncodeLength.Statement (i : Instr) : Prop :=
  (encode i).length = i.count + 1 ∧ (encode i).head? = some i.opcode.byte

theorem EncodeLength.hlt : EncodeLength.Statement .hlt := ⟨rfl, rfl⟩
theorem EncodeLength.ldi (r i : Byte) : EncodeLength.Statement (.ldi r i) :=
  ⟨by simp [encode, Instr.operands, Instr.count, Instr.opcode], rfl⟩
theorem EncodeLength.prn (r : Byte) : EncodeLength.Statement (.prn r) :=
  ⟨by simp [encode, Instr.operands, Instr.count, Instr.opcode], rfl⟩
theorem EncodeLength.mul (r q : Byte) : EncodeLength.Statement (.mul r q) :=
  ⟨by simp [encode, Instr.operands, Instr.count, Instr.opcode], rfl⟩

end Sys2Proof.Laws
end

