-- ==== Sys2Proof/Tests/Slice0.lean ====
section
/-! SUPPORT. Small tests with expected results from spec/95_test_vectors.md or written out from the
spec's tables, and a witness for the hypotheses of each statement. -/

namespace Sys2Proof.Tests

open Sys2Proof Sys2Proof.Machine

/-! ## Helpers -/

/-- A running core with bytes placed at `p`, `pc = p`, and given registers; only the placed cells are
listed, since a test of one step reads no other. -/
def stateAt (p : Nat) (bytes : List Byte) (regs : Vector Byte 8) : State where
  regs   := regs
  fl     := 0x5A
  pc     := p
  status := .running
  fault  := none
  mem    := placeBytes [] p bytes
  out    := []

/-- Eight different register values. -/
def someRegs : Vector Byte 8 := #v[200, 5, 255, 16, 100, 3, 7, 255]

/-- The outcome is a next state that passes a check. -/
def nextIs (o : Host.Outcome State Fault Refusal) (p : State → Bool) : Bool :=
  match o with
  | .next s => p s
  | .fault _ => false
  | .refused _ => false

/-- The state is `Faulted` with this record, and `pc` is the record's. -/
def faultedWith (c : Cause) (p : Nat) (s : State) : Bool :=
  s.status == .faulted && s.fault == some ⟨c, p⟩ && s.pc == p

/-! ## WellFormed: each check refuses an ill-formed term (R45) -/

theorem test_wf_accepts : (Instr.mul 7 0).wf = true ∧ (Instr.ldi 7 255).wf = true ∧ Instr.hlt.wf = true := by
  decide
theorem test_wf_refuses_ldi : (Instr.ldi 8 0).wf = false := by decide
theorem test_wf_refuses_prn : (Instr.prn 255).wf = false := by decide
theorem test_wf_refuses_mul_first : (Instr.mul 9 0).wf = false := by decide
theorem test_wf_refuses_mul_second : (Instr.mul 0 9).wf = false := by decide

/-! ## Decoding: words written out bit by bit from 30_encoding.md R44 and R48 -/

theorem test_decode_hlt : decode [0b00000001] = .ok (.hlt, []) := by rfl
theorem test_decode_ldi : decode [0b10000010, 0b00000111, 0b11111111] = .ok (.ldi 7 255, []) := by rfl
theorem test_decode_prn : decode [0b01000111, 0b00000011] = .ok (.prn 3, []) := by rfl
theorem test_decode_mul : decode [0b10100010, 0b00000101, 0b00000010] = .ok (.mul 5 2, []) := by rfl
theorem test_decode_missing : decode [0x82, 0x01] = .error (.missingOperand 1) := by rfl
theorem test_decode_nop_is_illegal : decode [0x00] = .error (.illegalOpcode 0x00) := by rfl
theorem test_encode_mul : encode (.mul 5 2) = [0xA2, 0x05, 0x02] := by decide
theorem test_table_words :
    decodeTableWord 8 0x01 = some .hlt ∧ decodeTableWord 24 0x080082 = some (.ldi 0 8) ∧
    decodeTableWord 16 0x0347 = some (.prn 3) ∧ decodeTableWord 24 0x0205A2 = some (.mul 5 2) ∧
    decodeTableWord 8 0x00 = none := by decide

/-- A table word is the first instruction that runs after reset. -/
theorem test_fetch_word_runs :
    nextIs (step (State.reset.withFetchWord 8 0x01)) (fun s => s.status == .halted && s.pc == 0) = true ∧
    nextIs (step (State.reset.withFetchWord 24 0x2A0382)) (fun s => s.regs[3] == 42 && s.pc == 3) = true ∧
    nextIs (step (State.reset.withFetchWord 16 0x47)) (fun s => s.out.length == 1 && s.pc == 2) = true ∧
    nextIs (step (State.reset.withFetchWord 24 0xA2)) (fun s => s.pc == 3) = true := by decide

/-! ## Steps (95_test_vectors.md part 2) -/

/-- V13. -/
theorem test_hlt_at_255 :
    nextIs (step (stateAt 255 [0x01] someRegs)) (fun s => s.status == .halted && s.pc == 255) = true := by
  decide

/-- V16. -/
theorem test_ldi_r7 :
    nextIs (step (stateAt 0 [0x82, 0x07, 0xFF] someRegs))
      (fun s => s.regs[7] == 255 && s.pc == 3 && s.status == .running) = true := by decide

/-- V22: the advance reaches 256. -/
theorem test_ldi_at_253 :
    nextIs (step (stateAt 253 [0x82, 0x01, 0x11] someRegs))
      (fun s => s.regs[1] == 0x11 && s.pc == 256 && s.status == .running) = true := by decide

/-- V29, with another register. -/
theorem test_prn_100 :
    nextIs (step (stateAt 0 [0x47, 0x04] someRegs)) (fun s => s.out == [100] && s.pc == 2) = true := by decide

/-- V30. -/
theorem test_prn_invalid :
    nextIs (step (stateAt 0 [0x47, 0x08] someRegs))
      (fun s => faultedWith (.invalidRegister 0x08) 0 s && s.out == []) = true := by decide

/-- V36: 1000 mod 256. -/
theorem test_mul_wraps :
    nextIs (step (stateAt 0 [0xA2, 0x00, 0x01] someRegs))
      (fun s => s.regs[0] == 232 && s.regs[1] == 5 && s.pc == 3 && s.fl == 0x5A) = true := by decide

/-- V48: operand 0 is checked first. -/
theorem test_mul_first_invalid :
    nextIs (step (stateAt 0 [0xA2, 0x0A, 0x09] someRegs)) (faultedWith (.invalidRegister 0x0A) 0) = true := by
  decide

/-- V37: 65025 mod 256, on the same register twice. -/
theorem test_mul_square :
    nextIs (exec (.mul 2 2) (stateAt 0 [] someRegs)) (fun s => s.regs[2] == 1) = true := by decide

/-- V7. -/
theorem test_fetch_at_256 :
    nextIs (step (stateAt 256 [] someRegs)) (faultedWith (.outOfBounds 256) 256) = true := by decide

/-- V25: operand reads come before register checks. -/
theorem test_operand_read_before_check :
    nextIs (step (stateAt 254 [0x82, 0x09] someRegs)) (faultedWith (.outOfBounds 256) 254) = true := by decide

/-- V62: an illegal opcode at 255 is no `OutOfBounds`. -/
theorem test_illegal_at_255 :
    nextIs (step (stateAt 255 [0xFF] someRegs)) (faultedWith (.illegalInstruction 0xFF) 255) = true := by
  decide

/-! ## The host's side -/

/-- V26, V27, V29: the lines `0`, `255` and `100`. -/
theorem test_render :
    renderLine 0 = [0x30, 0x0A] ∧ renderLine 255 = [0x32, 0x35, 0x35, 0x0A] ∧
    renderLine 100 = [0x31, 0x30, 0x30, 0x0A] := by decide

/-- V67, V68, V69. -/
theorem test_image_lines :
    parseLine "10000010 # LDI R0,8".toList = .ok (some 0x82) ∧ parseLine "   ".toList = .ok none ∧
    parseLine "# comment only".toList = .ok none ∧ parseLine "11111111".toList = .ok (some 0xFF) := by
  refine ⟨?_, ?_, ?_, ?_⟩ <;> rfl

/-- V70, V71. -/
theorem test_image_refused :
    parseLine "100000000".toList = .error .badLine ∧ parseLine "1020".toList = .error .badLine := by
  refine ⟨?_, ?_⟩ <;> rfl

/-! ## Witnesses: the hypotheses of each statement can be met, clause by clause -/

/-- The same core with all 256 cells, the ones not placed at `MEM_INIT`. -/
def fullStateAt (p : Nat) (bytes : List Byte) (regs : Vector Byte 8) : State :=
  { stateAt p bytes regs with mem := placeBytes Memory.init p bytes }

/-- A running state with `pc` at most 256 meets the invariant. -/
theorem fullStateAt_inv (p : Nat) (bytes : List Byte) (regs : Vector Byte 8) (hp : p ≤ 256) :
    (fullStateAt p bytes regs).Inv :=
  ⟨placeBytes_wf Memory.init_wf, hp, by simp [fullStateAt, stateAt], by simp [fullStateAt, stateAt]⟩

/-- StepAnswersNextState and RunEndsWithin129Steps, at both ends of the range of `pc`. -/
theorem witness_invariant_low : (fullStateAt 0 [0x82, 0x00, 0x08] someRegs).Inv :=
  fullStateAt_inv _ _ _ (by decide)
theorem witness_invariant_high : (fullStateAt 256 [] someRegs).Inv := fullStateAt_inv _ _ _ (by decide)

theorem witness_StepKeepsInvariant :
    (∃ s t, s.Inv ∧ step s = .next t ∧ t.status = .faulted) ∧
    (∃ s t, s.Inv ∧ step s = .next t ∧ t.status = .running) :=
  ⟨⟨fullStateAt 256 [] someRegs, _, fullStateAt_inv _ _ _ (by decide), rfl, rfl⟩,
   ⟨fullStateAt 0 [0x82, 0x00, 0x08] someRegs, _, fullStateAt_inv _ _ _ (by decide), rfl, rfl⟩⟩

/-- StepRunsDecodedInstruction, at the last place an LDI fits. -/
theorem witness_StepRunsDecodedInstruction :
    (stateAt 253 [0x82, 0x01, 0x11] someRegs).status = .running ∧
    memRead (stateAt 253 [0x82, 0x01, 0x11] someRegs).mem 253 = .ok 0x82 ∧
    readBytes (stateAt 253 [0x82, 0x01, 0x11] someRegs).mem 254 (operandCount 0x82) = .ok [0x01, 0x11] ∧
    decode [0x82, 0x01, 0x11] = .ok (.ldi 1 0x11, []) :=
  ⟨rfl, rfl, rfl, rfl⟩

/-- OpcodeMapIsExact's last clause and IllegalOpcodesRaise, at 255. -/
theorem witness_illegal_opcode :
    (stateAt 255 [0xFF] someRegs).status = .running ∧
    memRead (stateAt 255 [0xFF] someRegs).mem 255 = .ok 0xFF ∧
    (0xFF : Byte) ≠ 0x01 ∧ (0xFF : Byte) ≠ 0x82 ∧ (0xFF : Byte) ≠ 0x47 ∧ (0xFF : Byte) ≠ 0xA2 :=
  ⟨rfl, rfl, by decide, by decide, by decide, by decide⟩

theorem witness_IllegalOpcodesRaise_counts : (0 : Nat) < 4 ∧ (3 : Nat) < 4 := by decide

/-- LengthFromOpcodeAlone: a decoded sequence, and a fetched instruction with its last byte. -/
theorem witness_LengthFromOpcodeAlone :
    decode [0x47, 0x03, 0x01] = .ok (.prn 3, [0x01]) ∧
    fetch (stateAt 254 [0x47, 0x03] someRegs) = .ok (.prn 3) ∧ (encode (.prn 3))[1]? = some 0x03 :=
  ⟨rfl, rfl, rfl⟩

theorem witness_StoppedCoreStaysStopped :
    (halt (stateAt 0 [0x01] someRegs)).status = .halted ∧
    (raise (.outOfBounds 256) (stateAt 256 [] someRegs)).status = .faulted := ⟨rfl, rfl⟩

/-- OnlyHltHalts, and the second and third clauses of HltStopsTheRun (its last one is
witness_FetchPastMemoryFaults). -/
theorem witness_halting_step :
    (stateAt 255 [0x01] someRegs).status = .running ∧
    memRead (stateAt 255 [0x01] someRegs).mem 255 = .ok 0x01 ∧
    ∃ t, step (stateAt 255 [0x01] someRegs) = .next t ∧ t.status = .halted := ⟨rfl, rfl, _, rfl, rfl⟩

theorem witness_HaltFrame : ∃ t, exec .hlt (stateAt 255 [0x01] someRegs) = .next t := ⟨_, rfl⟩

/-- AdvanceIsExact and OutputGrowsOnlyByPrn: a step that goes on, at the last place a PRN fits. -/
theorem witness_advancing_step :
    ∃ t, step (stateAt 254 [0x47, 0x04] someRegs) = .next t ∧
      memRead (stateAt 254 [0x47, 0x04] someRegs).mem 254 = .ok 0x47 ∧ t.status = .running ∧ t.pc = 256 ∧
      t.out = [100] := ⟨_, rfl, rfl, rfl, rfl, rfl⟩

/-- AdvanceIsExact: a step that does not go on. -/
theorem witness_stopping_step :
    ∃ t, step (stateAt 0 [0x47, 0x08] someRegs) = .next t ∧ t.status ≠ .running := ⟨_, rfl, by decide⟩

theorem witness_HandlersNeverRetarget :
    handleHlt State.reset ∈ [handleHlt State.reset, handleLdi 0 0 State.reset, handlePrn 0 State.reset,
      handleMul 0 0 State.reset] := List.mem_cons_self

/-- The register operands at the ends of both ranges: 7 names a register, 8 and 255 name none. For
LdiLoadsImmediate, PrnEmitsRegister, MulMultipliesRegisters, RegisterOperandIsWholeByte,
NextInstructionSeesResult and ExecOutsideRunning. -/
theorem witness_register_bounds :
    (stateAt 0 [] someRegs).status = .running ∧ (0x07 : Byte).toNat < 8 ∧ 8 ≤ (0x08 : Byte).toNat ∧ 8 ≤ (0xFF : Byte).toNat := by
  decide

/-- LdiLoadsImmediate: the whole instruction at 253, and cut off at 254 and at 255. -/
theorem witness_LdiLoadsImmediate :
    (memRead (stateAt 253 [0x82, 0x07, 0xFF] someRegs).mem 253 = .ok 0x82 ∧
      memRead (stateAt 253 [0x82, 0x07, 0xFF] someRegs).mem 254 = .ok 0x07 ∧
      memRead (stateAt 253 [0x82, 0x07, 0xFF] someRegs).mem 255 = .ok 0xFF) ∧
    (memRead (stateAt 254 [0x82, 0x09] someRegs).mem 254 = .ok 0x82 ∧
      memRead (stateAt 254 [0x82, 0x09] someRegs).mem 255 = .ok 0x09) ∧
    memRead (stateAt 255 [0x82] someRegs).mem 255 = .ok 0x82 :=
  ⟨⟨rfl, rfl, rfl⟩, ⟨rfl, rfl⟩, rfl⟩

/-- PrnEmitsRegister: the whole instruction at 254, and cut off at 255. -/
theorem witness_PrnEmitsRegister :
    (memRead (stateAt 254 [0x47, 0x07] someRegs).mem 254 = .ok 0x47 ∧
      memRead (stateAt 254 [0x47, 0x07] someRegs).mem 255 = .ok 0x07) ∧
    memRead (stateAt 255 [0x47] someRegs).mem 255 = .ok 0x47 := ⟨⟨rfl, rfl⟩, rfl⟩

/-- MulMultipliesRegisters: the whole instruction at 253, and cut off at 254 and at 255. -/
theorem witness_MulMultipliesRegisters :
    (memRead (stateAt 253 [0xA2, 0x07, 0x00] someRegs).mem 253 = .ok 0xA2 ∧
      memRead (stateAt 253 [0xA2, 0x07, 0x00] someRegs).mem 254 = .ok 0x07 ∧
      memRead (stateAt 253 [0xA2, 0x07, 0x00] someRegs).mem 255 = .ok 0x00) ∧
    (memRead (stateAt 254 [0xA2, 0x09] someRegs).mem 254 = .ok 0xA2 ∧
      memRead (stateAt 254 [0xA2, 0x09] someRegs).mem 255 = .ok 0x09) ∧
    memRead (stateAt 255 [0xA2] someRegs).mem 255 = .ok 0xA2 :=
  ⟨⟨rfl, rfl, rfl⟩, ⟨rfl, rfl⟩, rfl⟩

/-- MultiplyArithmeticLaws: V43 and V44 both run. -/
theorem witness_MultiplyArithmeticLaws :
    (0x05 : Byte) ≠ 0x02 ∧ (0x05 : Byte).toNat < 8 ∧ (0x02 : Byte).toNat < 8 ∧
    (∃ t, exec (.mul 5 2) (stateAt 0 [] someRegs) = .next t) ∧
    ∃ u, exec (.mul 2 5) (stateAt 0 [] someRegs) = .next u :=
  ⟨by decide, by decide, by decide, ⟨_, rfl⟩, ⟨_, rfl⟩⟩

theorem witness_CompletesExactlyWhenWellFormed :
    (stateAt 0 [] someRegs).status = .running ∧ (Instr.mul 7 7).wf = true ∧ (Instr.mul 7 8).wf = false :=
  ⟨rfl, by decide, by decide⟩

theorem witness_RegisterWriteFrame :
    (∃ t, exec (.ldi 7 1) (stateAt 0 [] someRegs) = .next t) ∧
    (∃ t, exec (.mul 7 8) (stateAt 0 [] someRegs) = .next t) ∧
    (Instr.ldi 7 1).wf = true ∧ (Instr.mul 7 8).wf = false ∧ (0 : Fin 8).val ≠ (0x07 : Byte).toNat :=
  ⟨⟨_, rfl⟩, ⟨_, rfl⟩, by decide, by decide, by decide⟩

theorem witness_PrintFrame :
    (∃ t, exec (.prn 7) (stateAt 0 [] someRegs) = .next t) ∧
    ∃ t, exec (.prn 8) (stateAt 0 [] someRegs) = .next t := ⟨⟨_, rfl⟩, ⟨_, rfl⟩⟩

theorem witness_UnnamedRegisterIsNotUsed :
    ∀ b ∈ (Instr.mul 5 2).registerBytes, b.toNat ≠ (7 : Fin 8).val := by decide

theorem witness_FlagsRegisterIsInert : ∃ t, step (stateAt 0 [0x82, 0x00, 0x08] someRegs) = .next t := ⟨_, rfl⟩

theorem witness_MemReadIsRangeChecked : State.reset.mem.wf ∧ (0 : Nat) < 256 ∧ (255 : Nat) < 256 :=
  ⟨reset_mem_wf, by decide, by decide⟩

theorem witness_MemWriteThenRead : (255 : Nat) < 256 ∧ (256 : Nat) ≤ 256 ∧ (254 : Nat) ≠ 255 := by decide

theorem witness_RunNeverWritesMemory : ∃ t, runFor 2 (stateAt 0 [0x47, 0x00, 0x01] someRegs) = .next t :=
  ⟨_, rfl⟩

theorem witness_FetchPastMemoryFaults_read :
    memRead (stateAt 256 [] someRegs).mem (stateAt 256 [] someRegs).pc = .error (.raised (.outOfBounds 256)) :=
  rfl

/-- FetchPastMemoryFaults, and the first clause of FirstFaultIsReported. -/
theorem witness_FetchPastMemoryFaults :
    (stateAt 256 [] someRegs).status = .running ∧ (stateAt 256 [] someRegs).pc = 256 := ⟨rfl, rfl⟩

theorem witness_FaultingStepCommitsNothingElse :
    ∃ t, step (stateAt 256 [] someRegs) = .next t ∧ t.status = .faulted := ⟨_, rfl, rfl⟩

/-- FirstFaultIsReported, third clause: the first operand beyond memory at 255 and the second at 254; and
fourth clause: MUL's second operand, with the first one valid. -/
theorem witness_FirstFaultIsReported :
    (memRead (stateAt 255 [0xA2] someRegs).mem 255 = .ok Opcode.mul.byte ∧ 256 ≤ 255 + 1) ∧
    (memRead (stateAt 254 [0xA2, 0x09] someRegs).mem 254 = .ok Opcode.mul.byte ∧ 256 ≤ 254 + 2 ∧
      ∃ v, memRead (stateAt 254 [0xA2, 0x09] someRegs).mem (254 + 1) = .ok v) ∧
    (memRead (stateAt 253 [0xA2, 0x07, 0x08] someRegs).mem 253 = .ok (Instr.mul 7 8).opcode.byte ∧
      readBytes (stateAt 253 [0xA2, 0x07, 0x08] someRegs).mem 254
        (operandCount (Instr.mul 7 8).opcode.byte) = .ok (Instr.mul 7 8).operands ∧
      (Instr.mul 7 8).registerBytes[1]? = some 0x08 ∧ 8 ≤ (0x08 : Byte).toNat ∧ (0x07 : Byte).toNat < 8) :=
  ⟨⟨rfl, by decide⟩, ⟨rfl, by decide, _, rfl⟩, rfl, rfl, rfl, by decide, by decide⟩

theorem witness_InspectOnlyWhenStopped :
    (stateAt 0 [] someRegs).status = .running ∧ (halt (stateAt 0 [] someRegs)).status ≠ .running :=
  ⟨rfl, by decide⟩

/-- ExecOutsideRunning, in both stopped statuses (the register bytes are witness_register_bounds). -/
theorem witness_ExecOutsideRunning :
    (halt (stateAt 0 [] someRegs)).status ≠ .running ∧
    (raise (.outOfBounds 256) (stateAt 256 [] someRegs)).status ≠ .running := by decide

/-- LaunchPlacesImage at both ends of an image's length (V64, V66). -/
theorem witness_LaunchPlacesImage :
    State.reset.mem.wf ∧ ([] : List Byte).length ≤ 256 ∧ (List.replicate 256 (0x01 : Byte)).length ≤ 256 :=
  ⟨reset_mem_wf, by decide, (List.length_replicate ..).le⟩

/-- V65. -/
theorem witness_OversizeImageIsRefused : 256 < (List.replicate 257 (0x01 : Byte)).length := by
  rw [List.length_replicate]
  decide

theorem witness_RelaunchReproducesTheRun :
    ∃ l t, launch [0x82, 0x00, 0x08, 0x47, 0x00, 0x01] State.reset = .ok l ∧ runFor 3 l = .next t ∧
      t.status = .halted ∧ t.out = [8] := ⟨_, _, rfl, rfl, rfl, rfl⟩

theorem witness_BadImageFilesAreRefused :
    '2' ∈ stripSpace (stripComment "1020".toList) ∧
    binaryValue 0 (stripSpace (stripComment "100000000".toList)) = some 256 ∧
    splitLines "1\n1020".toList = ["1".toList] ++ "1020".toList :: [] ∧
    parseLines ["1".toList] = .ok [0x01] := by
  refine ⟨by decide, rfl, rfl, rfl⟩

end Sys2Proof.Tests
end

section
/-! SUPPORT. `MemRead` and `MemWrite` against the cells (20_memory.md, R24 to R26). -/

namespace Sys2Proof.Machine

/-! ## Where the byte of an address stands -/

theorem mem_of_lookupCell {m : Memory} {a : Nat} {v : Byte} (h : lookupCell m a = some v) :
    (a, v) ∈ m := by
  induction m with
  | nil => cases h
  | cons c m ih =>
    obtain ⟨b, w⟩ := c
    by_cases hb : a = b
    · obtain rfl : w = v := by simpa [lookupCell, hb] using h
      simp [hb]
    · exact List.mem_cons_of_mem _ (ih (by simpa [lookupCell, hb] using h))

/-- In a canonical memory the k-th cell is the one of address k. -/
theorem Memory.wf.address_eq_index {m : Memory} (h : m.wf) {k a : Nat} {v : Byte}
    (hk : m[k]? = some (a, v)) : a = k := by
  have hkey : (List.range 256)[k]? = some a := by rw [← h, List.getElem?_map, hk]; rfl
  obtain ⟨_, hget⟩ := List.getElem?_eq_some_iff.1 hkey
  rw [← hget, List.getElem_range]

theorem Memory.wf.getElem?_of_lookupCell {m : Memory} (h : m.wf) {a : Nat} {v : Byte}
    (hl : lookupCell m a = some v) : m[a]? = some (a, v) := by
  obtain ⟨k, hk⟩ := List.mem_iff_getElem?.1 (mem_of_lookupCell hl)
  obtain rfl := h.address_eq_index hk
  exact hk

theorem lookupCell_of_memRead_ok {m : Memory} {a : Nat} {v : Byte} (h : memRead m a = .ok v) :
    lookupCell m a = some v := by
  obtain ⟨w, _, hl, hr⟩ | ⟨_, _, hr⟩ | ⟨_, hr⟩ := memRead_cases m a
  · obtain rfl : w = v := by simpa [h] using hr.symm
    exact hl
  all_goals simp [h] at hr

/-! ## Writes -/

theorem memWrite_inRange (m : Memory) {a : Nat} (ha : a < 256) (v : Byte) :
    memWrite m a v = .ok (setCell m a v) := by
  simp [memWrite, memSize, ha]

theorem memWrite_outOfBounds (m : Memory) {a : Nat} (ha : 256 ≤ a) (v : Byte) :
    memWrite m a v = .error (.outOfBounds a) := by
  simp [memWrite, memSize, Nat.not_lt.2 ha]

/-! ## Reads after a write -/

theorem memRead_setCell_same (m : Memory) {a : Nat} (ha : a < 256) (v : Byte) :
    memRead (setCell m a v) a = .ok v := by
  simp [memRead, memSize, ha]

theorem memRead_setCell_other (m : Memory) {a b : Nat} (hb : b ≠ a) (v : Byte) :
    memRead (setCell m a v) b = memRead m b := by
  simp only [memRead, lookupCell_setCell_other m a b v hb]

/-! ## The obligations -/

/-- Settles O31: the addressed byte is listed, and in a canonical memory it stands at its own address. -/
theorem memReadIsRangeChecked : Obligations.MemReadIsRangeChecked := by
  refine ⟨fun m a hwf ha => ?inRange, fun m a ha => memRead_outOfBounds m ha⟩
  case inRange =>
    obtain ⟨v, hv⟩ := memRead_total hwf ha
    exact ⟨v, hwf.getElem?_of_lookupCell (lookupCell_of_memRead_ok hv), hv⟩

/-- Settles O32: a write in range is `setCell`, which changes the listed byte of its own address only. -/
theorem memWriteThenRead : Obligations.MemWriteThenRead := by
  refine ⟨fun m a v ha => ?inRange, fun m a v ha => memWrite_outOfBounds m ha v⟩
  case inRange =>
    exact ⟨setCell m a v, memWrite_inRange m ha v, memRead_setCell_same m ha v,
      fun _ hb => memRead_setCell_other m hb v⟩

end Sys2Proof.Machine
end

section
/-! SUPPORT. The decoder against the encoder, the length of an instruction, and where its bytes stand
(30_encoding.md, R42, R44, R48, R49). -/

namespace Sys2Proof

/-! ## The decoder -/

/-- A defined opcode byte leaves the rest to its own format. -/
@[simp] theorem decode_opcode_byte (o : Opcode) (rest : List Byte) :
    decode (o.byte :: rest) = decodeOperands o rest := by
  simp [decode]

theorem decode_illegal {op : Byte} (h : decodeOpcode op = none) (rest : List Byte) :
    decode (op :: rest) = .error (.illegalOpcode op) := by
  simp [decode, h]

@[simp] theorem decode_encode_append (i : Instr) (rest : List Byte) :
    decode (encode i ++ rest) = .ok (i, rest) := by
  cases i <;> rfl

/-- Operands that are read are the operand bytes of an instruction of that opcode, then the bytes left. -/
theorem decodeOperands_ok {o : Opcode} {bs rest : List Byte} {i : Instr}
    (h : decodeOperands o bs = .ok (i, rest)) : i.opcode = o ∧ bs = i.operands ++ rest := by
  fun_cases decodeOperands o bs <;> cases h <;> exact ⟨rfl, rfl⟩

/-- What decodes to an instruction is that instruction's bytes, then the bytes left. -/
theorem decode_ok {bs rest : List Byte} {i : Instr} (h : decode bs = .ok (i, rest)) :
    bs = encode i ++ rest := by
  cases bs with
  | nil => cases h
  | cons op bs =>
    cases ho : decodeOpcode op with
    | none => rw [decode_illegal ho] at h; cases h
    | some o =>
      obtain rfl := decodeOpcode_some ho
      rw [decode_opcode_byte] at h
      obtain ⟨rfl, rfl⟩ := decodeOperands_ok h
      rfl

/-! ## The length -/

theorem encode_length : ∀ i : Instr, (encode i).length = i.count + 1
  | .hlt => Laws.EncodeLength.hlt.1
  | .ldi r v => (Laws.EncodeLength.ldi r v).1
  | .prn r => (Laws.EncodeLength.prn r).1
  | .mul r q => (Laws.EncodeLength.mul r q).1

/-- The field `opcode[7:6]` as a shift and a mask. -/
theorem operandCount_eq_shift_mask (op : Byte) : operandCount op = ((op >>> 6) &&& 0b11).toNat := by
  have hmask : ∀ n : Nat, n &&& 3 = n % 4 := fun n => Nat.and_two_pow_sub_one_eq_mod n 2
  simp [operandCount, hmask]

end Sys2Proof

namespace Sys2Proof.Machine

/-! ## The fetch -/

/-- Byte `k` of a fetched instruction stands at `pc + k`. -/
theorem fetch_byte {s : State} {i : Instr} {k : Nat} {b : Byte} (h : fetch s = .ok i)
    (hk : (encode i)[k]? = some b) : memRead s.mem (s.pc + k) = .ok b := by
  obtain ⟨hop, hbs, _⟩ := fetch_ok h
  cases k with
  | zero =>
    obtain rfl : i.opcode.byte = b := by simpa [encode] using hk
    exact hop
  | succ k =>
    rw [show s.pc + (k + 1) = s.pc + 1 + k by omega]
    exact readBytes_get hbs (by simpa [encode] using hk)

/-- An illegal opcode stops the fetch before any operand byte is read (R57). -/
theorem fetch_illegal {s : State} {op : Byte} (hop : memRead s.mem s.pc = .ok op)
    (hd : decodeOpcode op = none) : fetch s = .error (.raised (.illegalInstruction op)) := by
  simp [fetch, hop, hd]

theorem step_raised {s : State} {c : Cause} (hs : s.status = .running)
    (hf : fetch s = .error (.raised c)) : step s = .next (raise c s) := by
  rw [step_running hs, hf]
  rfl

/-! ## Register operands that name no register -/

theorem exec_ldi_invalid {b : Byte} (hb : 8 ≤ b.toNat) (v : Byte) (s : State) :
    exec (.ldi b v) s = .next (raise (.invalidRegister b) s) := withReg_invalid hb s _

theorem exec_prn_invalid {b : Byte} (hb : 8 ≤ b.toNat) (s : State) :
    exec (.prn b) s = .next (raise (.invalidRegister b) s) := withReg_invalid hb s _

theorem exec_mul_invalid_first {b : Byte} (hb : 8 ≤ b.toNat) (v : Byte) (s : State) :
    exec (.mul b v) s = .next (raise (.invalidRegister b) s) := withReg_invalid hb s _

theorem exec_mul_invalid_second {v b : Byte} (hv : v.toNat < 8) (hb : 8 ≤ b.toNat) (s : State) :
    exec (.mul v b) s = .next (raise (.invalidRegister b) s) :=
  (withReg_valid hv s _).trans (withReg_invalid hb s _)

/-! ## The obligations -/

/-- Settles O3: each row is an encoding read back, and any other byte is in no row of the table. -/
theorem opcodeMapIsExact : Obligations.OpcodeMapIsExact :=
  ⟨decode_encode_append .hlt, fun r i => decode_encode_append (.ldi r i),
    fun r => decode_encode_append (.prn r), fun r q => decode_encode_append (.mul r q),
    operandCount_hlt, operandCount_ldi, operandCount_prn, operandCount_mul,
    fun _ rest hlt ldi prn mul => decode_illegal (decodeOpcode_none.2 ⟨hlt, ldi, prn, mul⟩) rest⟩

/-- Settles O4: what decodes is an encoding, whose length its opcode byte gives, and a fetch reads its
bytes one after the other. -/
theorem lengthFromOpcodeAlone : Obligations.LengthFromOpcodeAlone := by
  refine ⟨operandCount_eq_shift_mask, fun op rest i rest' h => ?decoded, fun _ _ _ _ => fetch_byte⟩
  case decoded =>
    have henc : op :: rest = encode i ++ rest' := decode_ok h
    obtain rfl : op = i.opcode.byte := (List.cons.inj henc).1
    exact ⟨henc, encode_length i⟩

/-- Settles O6: an illegal opcode stops the fetch, and the step takes its fault; the bytes of each operand
count are counted. -/
theorem illegalOpcodesRaise : Obligations.IllegalOpcodesRaise := by
  refine ⟨fun s op hs hop hlt ldi prn mul => ?raises, fun n hn => ?counts⟩
  case raises =>
    exact step_raised hs (fetch_illegal hop (decodeOpcode_none.2 ⟨hlt, ldi, prn, mul⟩))
  case counts =>
    interval_cases n <;> rfl

/-- Settles O26: the register check fails with the byte itself, for MUL's second operand after the first
one passed. -/
theorem registerOperandIsWholeByte : Obligations.RegisterOperandIsWholeByte := by
  refine ⟨fun _ => regOperand_some, fun _ => regOperand_none, fun b v s i _ hb hi => ?raises⟩
  case raises =>
    obtain rfl | rfl | rfl | ⟨rfl, hv⟩ := hi
    · exact exec_ldi_invalid hb v s
    · exact exec_prn_invalid hb s
    · exact exec_mul_invalid_first hb v s
    · exact exec_mul_invalid_second hv hb s

end Sys2Proof.Machine
end

section
/-! SUPPORT. The read of the opcode byte comes first in a step (40_execution_cycle.md, R54, R55). -/

namespace Sys2Proof.Machine

/-! ## The opcode read -/

/-- A failed read of the opcode byte is what stops the fetch. -/
theorem fetch_opcodeRead_error {s : State} {e : Stop} (h : memRead s.mem s.pc = .error e) :
    fetch s = .error e := by
  simp [fetch, h]

theorem step_opcodeRead_raised {s : State} {c : Cause} (hs : s.status = .running)
    (h : memRead s.mem s.pc = .error (.raised c)) : step s = .next (raise c s) :=
  step_raised hs (fetch_opcodeRead_error h)

/-! ## The obligations -/

/-- Settles O34: the fault of the opcode read is the fetch's and so the step's, and at `pc` 256 the read
is out of bounds. -/
theorem fetchPastMemoryFaults : Obligations.FetchPastMemoryFaults := by
  refine ⟨fun s c hs hread => step_opcodeRead_raised hs hread, fun s hs hpc => ?pastMemory⟩
  case pastMemory =>
    have hread : memRead s.mem s.pc = .error (.raised (.outOfBounds s.pc)) :=
      memRead_outOfBounds s.mem hpc.ge
    simpa [raise, hpc] using step_opcodeRead_raised hs hread

end Sys2Proof.Machine
end

section
/-! SUPPORT. HLT (41_halt.md, R69), and the step of a fetched instruction. -/

namespace Sys2Proof.Machine

/-! ## HLT -/

/-- A halting core does not advance (R64). -/
@[simp] theorem exec_hlt (s : State) : exec .hlt s = .next (halt s) := by
  have hstopped : (handleHlt s).state.status ≠ .running := by simp [handleHlt]
  exact finish_stopped (n := operandCount Opcode.hlt.byte) hstopped

/-- HLT has no operand bytes to read. -/
theorem fetch_hlt {s : State} (hop : memRead s.mem s.pc = .ok Opcode.hlt.byte) : fetch s = .ok .hlt :=
  fetch_at hop rfl

/-! ## The step of a fetched instruction -/

theorem step_fetched {s : State} {i : Instr} (hs : s.status = .running) (hf : fetch s = .ok i) :
    step s = exec i s := by
  rw [step_running hs, hf]

theorem step_hlt {s : State} (hs : s.status = .running)
    (hop : memRead s.mem s.pc = .ok Opcode.hlt.byte) : step s = .next (halt s) :=
  (step_fetched hs (fetch_hlt hop)).trans (exec_hlt s)

/-! ## The obligation -/

/-- Settles O16: the byte 01 is a whole encoding, so a step on it is `exec` of HLT, which halts without an
advance; at `pc` 256 the opcode read faults before anything is decoded. -/
theorem hltStopsTheRun : Obligations.HltStopsTheRun :=
  ⟨decode_encode_append .hlt, fun s _ => exec_hlt s, fun _ hs hop => step_hlt hs hop,
    fetchPastMemoryFaults.2⟩

end Sys2Proof.Machine
end

section
/-! SUPPORT. LDI (42_load_immediate.md, R71), and the operand reads of a step (40_execution_cycle.md,
R58). -/

namespace Sys2Proof.Machine

/-! ## The operand reads -/

/-- The first address that fails is what stops the reads. -/
theorem readBytes_first_error {m : Memory} {a n k : Nat} {e : Stop} (hk : k < n)
    (he : memRead m (a + k) = .error e) (hlow : ∀ j, j < k → ∃ v, memRead m (a + j) = .ok v) :
    readBytes m a n = .error e := by
  induction n generalizing a k with
  | zero => cases hk
  | succ n ih =>
    cases k with
    | zero =>
      have ha : memRead m a = .error e := he
      simp [readBytes, ha]
    | succ k =>
      obtain ⟨v, hv⟩ : ∃ v, memRead m a = .ok v := hlow 0 k.succ_pos
      have hshift : ∀ j, a + (j + 1) = a + 1 + j := by omega
      have htail : readBytes m (a + 1) n = .error e :=
        ih (Nat.lt_of_succ_lt_succ hk) (hshift k ▸ he) fun j hj => hshift j ▸ hlow (j + 1) (by omega)
      simp [readBytes, hv, htail]

theorem readBytes_two {m : Memory} {a : Nat} {v w : Byte} (hv : memRead m a = .ok v)
    (hw : memRead m (a + 1) = .ok w) : readBytes m a 2 = .ok [v, w] := by
  simp [readBytes, hv, hw]

/-- A failed read of an operand byte is what stops the fetch of a defined opcode. -/
theorem fetch_operandRead_error {s : State} {o : Opcode} {e : Stop}
    (hop : memRead s.mem s.pc = .ok o.byte)
    (hbs : readBytes s.mem (s.pc + 1) (operandCount o.byte) = .error e) : fetch s = .error e := by
  simp [fetch, hop, hbs]

/-- The step takes the fault of the first operand byte that lies beyond memory; `k` is the operand's
number, from 0. -/
theorem step_operandRead_outOfBounds {s : State} {o : Opcode} {k : Nat} (hs : s.status = .running)
    (hop : memRead s.mem s.pc = .ok o.byte) (hk : k < operandCount o.byte)
    (hbeyond : 256 ≤ s.pc + 1 + k)
    (hlow : ∀ j, j < k → ∃ v, memRead s.mem (s.pc + 1 + j) = .ok v) :
    step s = .next (raise (.outOfBounds (s.pc + 1 + k)) s) :=
  step_raised hs <| fetch_operandRead_error hop <|
    readBytes_first_error hk (memRead_outOfBounds s.mem hbeyond) hlow

/-! ## LDI -/

theorem exec_ldi_valid {s : State} {r : Byte} (hs : s.status = .running) (hr : r.toNat < 8) (v : Byte) :
    exec (.ldi r v) s = .next (setPc (writeReg s ⟨r.toNat, hr⟩ v) (s.pc + 3)) :=
  have hrun : (handleLdi ⟨r.toNat, hr⟩ v s).state.status = .running := hs
  (withReg_valid hr s _).trans (finish_running hrun rfl)

theorem fetch_ldi {s : State} {r v : Byte} (hop : memRead s.mem s.pc = .ok Opcode.ldi.byte)
    (hr : memRead s.mem (s.pc + 1) = .ok r) (hv : memRead s.mem (s.pc + 2) = .ok v) :
    fetch s = .ok (.ldi r v) := by
  have hcount : (Instr.ldi r v).count = 2 := operandCount_ldi
  exact fetch_at hop (hcount ▸ readBytes_two hr hv)

theorem step_ldi {s : State} {r v : Byte} (hs : s.status = .running)
    (hop : memRead s.mem s.pc = .ok Opcode.ldi.byte) (hr : memRead s.mem (s.pc + 1) = .ok r)
    (hv : memRead s.mem (s.pc + 2) = .ok v) : step s = exec (.ldi r v) s :=
  step_fetched hs (fetch_ldi hop hr hv)

/-! ## The obligation -/

/-- Settles O17: three readable bytes are fetched and executed, at 253 too, where the advance reaches 256
and the next opcode read faults; at 254 the second operand lies beyond memory, at 255 the first. -/
theorem ldiLoadsImmediate : Obligations.LdiLoadsImmediate := by
  refine ⟨fun r v => decode_encode_append (.ldi r v), fun s r v hr hs => exec_ldi_valid hs hr v,
    fun s r v _ hr => exec_ldi_invalid hr v s, fun s r v => step_ldi,
    fun s r v hr hs hpc hop hrb hvb => ⟨_, rfl, ?at253, fetchPastMemoryFaults.2 _ hs rfl⟩,
    fun s hs hop hpc => ?at255, fun s r hs hop hrb hpc => ?at254⟩
  case at253 =>
    have hstep : step s = exec (.ldi r v) s :=
      step_ldi hs (hpc ▸ hop) (hpc ▸ hrb) (hpc ▸ hvb)
    rw [hstep, exec_ldi_valid hs hr, hpc]
    rfl
  case at255 =>
    have hfault := step_operandRead_outOfBounds (o := .ldi) (k := 0) hs hop (by decide) (by omega)
      (by simp)
    simpa [raise, hpc] using hfault
  case at254 =>
    have hfault := step_operandRead_outOfBounds (o := .ldi) (k := 1) hs hop (by decide) (by omega)
      fun j hj => by
        obtain rfl : j = 0 := by omega
        exact ⟨r, hrb⟩
    simpa [raise, hpc] using hfault

end Sys2Proof.Machine
end

section
/-! SUPPORT. PRN (43_print.md, R72), and the registers at reset (R9). -/

namespace Sys2Proof.Machine

/-! ## The registers at reset -/

@[simp] theorem readReg_reset (i : Fin 8) : readReg State.reset i = Config.regInit i := by
  fin_cases i <;> rfl

/-! ## PRN -/

theorem exec_prn_valid {s : State} {r : Byte} (hs : s.status = .running) (hr : r.toNat < 8) :
    exec (.prn r) s = .next (setPc (emit s (readReg s ⟨r.toNat, hr⟩)) (s.pc + 2)) :=
  have hrun : (handlePrn ⟨r.toNat, hr⟩ s).state.status = .running := hs
  (withReg_valid hr s _).trans (finish_running hrun rfl)

theorem readBytes_one {m : Memory} {a : Nat} {v : Byte} (hv : memRead m a = .ok v) :
    readBytes m a 1 = .ok [v] := by
  simp [readBytes, hv]

theorem fetch_prn {s : State} {r : Byte} (hop : memRead s.mem s.pc = .ok Opcode.prn.byte)
    (hr : memRead s.mem (s.pc + 1) = .ok r) : fetch s = .ok (.prn r) := by
  have hcount : (Instr.prn r).count = 1 := operandCount_prn
  exact fetch_at hop (hcount ▸ readBytes_one hr)

theorem step_prn {s : State} {r : Byte} (hs : s.status = .running)
    (hop : memRead s.mem s.pc = .ok Opcode.prn.byte) (hr : memRead s.mem (s.pc + 1) = .ok r) :
    step s = exec (.prn r) s :=
  step_fetched hs (fetch_prn hop hr)

/-! ## The obligation -/

/-- Settles O18: two readable bytes are fetched and executed, at 254 too, where the advance reaches 256
and the next opcode read faults; at 255 the operand lies beyond memory. At reset the emitted register
still holds its `REG_INIT` value. -/
theorem prnEmitsRegister : Obligations.PrnEmitsRegister := by
  refine ⟨fun r => decode_encode_append (.prn r), fun s r hr hs => exec_prn_valid hs hr,
    fun s r _ hr => exec_prn_invalid hr s, fun s r => step_prn,
    fun s r hr hs hpc hop hrb => ⟨_, rfl, ?at254, fetchPastMemoryFaults.2 _ hs rfl⟩,
    fun r hr => ?atReset, fun s hs hop hpc => ?at255⟩
  case at254 =>
    have hstep : step s = exec (.prn r) s := step_prn hs (hpc ▸ hop) (hpc ▸ hrb)
    rw [hstep, exec_prn_valid hs hr, hpc]
    rfl
  case atReset =>
    rw [exec_prn_valid rfl hr, readReg_reset]
    rfl
  case at255 =>
    have hfault := step_operandRead_outOfBounds (o := .prn) (k := 0) hs hop (by decide) (by omega)
      (by simp)
    simpa [raise, hpc] using hfault

end Sys2Proof.Machine
end

section
/-! SUPPORT. MUL (44_multiply.md, R75), and an instruction cut off by the end of memory
(40_execution_cycle.md, R58). -/

namespace Sys2Proof.Machine

/-! ## The end of memory -/

/-- Where operand byte `k` would stand at address 256 and the operand bytes before it are readable, the
step faults with that address. -/
theorem step_cutOff {s : State} {o : Opcode} {k p : Nat} (hs : s.status = .running)
    (hop : memRead s.mem s.pc = .ok o.byte) (hk : k < operandCount o.byte) (hpc : s.pc = p)
    (hend : p + 1 + k = 256) (hlow : ∀ j, j < k → ∃ v, memRead s.mem (s.pc + 1 + j) = .ok v) :
    step s = .next { s with status := .faulted, fault := some ⟨.outOfBounds 256, p⟩ } := by
  subst hpc
  have hfault := step_operandRead_outOfBounds hs hop hk hend.ge hlow
  rwa [hend] at hfault

/-! ## MUL -/

@[simp] theorem mul8_toNat (a b : Byte) : (mul8 a b).toNat = a.toNat * b.toNat % 256 := by
  simp [mul8]

theorem exec_mul_valid {s : State} {r q : Byte} (hs : s.status = .running) (hr : r.toNat < 8)
    (hq : q.toNat < 8) :
    exec (.mul r q) s = .next (setPc (writeReg s ⟨r.toNat, hr⟩
      (mul8 (readReg s ⟨r.toNat, hr⟩) (readReg s ⟨q.toNat, hq⟩))) (s.pc + 3)) :=
  have hrun : (handleMul ⟨r.toNat, hr⟩ ⟨q.toNat, hq⟩ s).state.status = .running := hs
  (withReg_valid hr s _).trans <| (withReg_valid hq s _).trans (finish_running hrun rfl)

theorem fetch_mul {s : State} {r q : Byte} (hop : memRead s.mem s.pc = .ok Opcode.mul.byte)
    (hr : memRead s.mem (s.pc + 1) = .ok r) (hq : memRead s.mem (s.pc + 2) = .ok q) :
    fetch s = .ok (.mul r q) := by
  have hcount : (Instr.mul r q).count = 2 := operandCount_mul
  exact fetch_at hop (hcount ▸ readBytes_two hr hq)

theorem step_mul {s : State} {r q : Byte} (hs : s.status = .running)
    (hop : memRead s.mem s.pc = .ok Opcode.mul.byte) (hr : memRead s.mem (s.pc + 1) = .ok r)
    (hq : memRead s.mem (s.pc + 2) = .ok q) : step s = exec (.mul r q) s :=
  step_fetched hs (fetch_mul hop hr hq)

/-! ## The obligation -/

/-- Settles O19: the product of the two old values goes to the first register, the registers are checked
in the order of the operands, and three readable bytes are fetched and executed; at 255 the first operand
lies beyond memory, at 254 the second. -/
theorem mulMultipliesRegisters : Obligations.MulMultipliesRegisters := by
  refine ⟨fun r q => decode_encode_append (.mul r q),
    fun s r q hr hq hs => ⟨_, mul8_toNat _ _, exec_mul_valid hs hr hq⟩,
    fun s r q _ hr => exec_mul_invalid_first hr q s, fun s r q _ hr hq => exec_mul_invalid_second hr hq s,
    fun s r q => step_mul, fun s hs hop hpc => ?at255, fun s r hs hop hrb hpc => ?at254⟩
  case at255 =>
    exact step_cutOff (o := .mul) (k := 0) hs hop (by decide) hpc rfl (by simp)
  case at254 =>
    refine step_cutOff (o := .mul) (k := 1) hs hop (by decide) hpc rfl fun j hj => ?_
    obtain rfl : j = 0 := Nat.lt_one_iff.1 hj
    exact ⟨r, hrb⟩

end Sys2Proof.Machine
end

section
/-! SUPPORT. The decoder and the encoder are inverse to each other (30_encoding.md, R42, R44). -/

namespace Sys2Proof

/-- Settles O5: what decodes is an encoding, and an encoding decodes to its own instruction. -/
theorem decodeAndEncodeAgree : Obligations.DecodeAndEncodeAgree :=
  fun i _ rest => ⟨decode_ok, fun h => h ▸ decode_encode_append i rest⟩

end Sys2Proof
end

section
/-! SUPPORT. What an instruction does, said once for all four: the register check as the first byte that
names no register, and the change a completed instruction makes before the advance (40_execution_cycle.md,
R59, R60, R62). -/

namespace Sys2Proof

/-! ## The register check -/

/-- The first register operand byte that names no register: the one `InvalidRegister` reports (R59). -/
def Instr.firstInvalid (i : Instr) : Option Byte := i.registerBytes.find? fun b => !namesRegister b

@[simp] theorem namesRegister_eq_true {b : Byte} : namesRegister b = true ↔ b.toNat < 8 := by
  simp [namesRegister]

@[simp] theorem namesRegister_eq_false {b : Byte} : namesRegister b = false ↔ 8 ≤ b.toNat := by
  simp [namesRegister]

theorem Instr.wf_iff {i : Instr} : i.wf = true ↔ ∀ b ∈ i.registerBytes, b.toNat < 8 := by
  simp [Instr.wf]

@[simp] theorem Instr.wf_ldi {r v : Byte} : (Instr.ldi r v).wf = true ↔ r.toNat < 8 := by
  simp [Instr.wf_iff, Instr.registerBytes]

@[simp] theorem Instr.wf_prn {r : Byte} : (Instr.prn r).wf = true ↔ r.toNat < 8 := by
  simp [Instr.wf_iff, Instr.registerBytes]

@[simp] theorem Instr.wf_mul {r q : Byte} : (Instr.mul r q).wf = true ↔ r.toNat < 8 ∧ q.toNat < 8 := by
  simp [Instr.wf_iff, Instr.registerBytes]

theorem Instr.wf_iff_firstInvalid {i : Instr} : i.wf = true ↔ i.firstInvalid = none := by
  simp [Instr.wf_iff, Instr.firstInvalid]

theorem Instr.exists_firstInvalid {i : Instr} (h : i.wf = false) : ∃ b, i.firstInvalid = some b := by
  have hsome : i.firstInvalid ≠ none := fun hn => by simp [Instr.wf_iff_firstInvalid.2 hn] at h
  exact Option.ne_none_iff_exists'.1 hsome

theorem Instr.firstInvalid_spec {i : Instr} {b : Byte} (h : i.firstInvalid = some b) :
    b ∈ i.registerBytes ∧ 8 ≤ b.toNat :=
  ⟨List.mem_of_find?_eq_some h, by simpa using List.find?_some h⟩

/-- The byte at place `k` is the first invalid one when every byte before it names a register. -/
theorem Instr.firstInvalid_of_getElem? {i : Instr} {k : Nat} {b : Byte}
    (hk : i.registerBytes[k]? = some b) (hb : 8 ≤ b.toNat)
    (hlow : ∀ j c, j < k → i.registerBytes[j]? = some c → c.toNat < 8) : i.firstInvalid = some b := by
  obtain ⟨hlen, hget⟩ := List.getElem?_eq_some_iff.1 hk
  refine List.find?_eq_some_iff_getElem.2 ⟨by simpa using hb, k, hlen, hget, fun j hj => ?_⟩
  simpa using hlow j _ hj (List.getElem?_eq_getElem (hj.trans hlen))

end Sys2Proof

namespace Sys2Proof.Machine

/-! ## The change a completed instruction makes -/

/-- The register a valid operand byte names (R45). -/
def registerOf (b : Byte) : Fin 8 := Fin.ofNat 8 b.toNat

theorem registerOf_valid {b : Byte} (h : b.toNat < 8) : registerOf b = ⟨b.toNat, h⟩ :=
  Fin.ext (Nat.mod_eq_of_lt h)

/-- What each instruction changes beside `pc` when its register operands name registers (R69, R71, R72,
R75). -/
def effect : Instr → State → State
  | .hlt, s => halt s
  | .ldi r v, s => writeReg s (registerOf r) v
  | .prn r, s => emit s (readReg s (registerOf r))
  | .mul r q, s => writeReg s (registerOf r) (mul8 (readReg s (registerOf r)) (readReg s (registerOf q)))

@[simp] theorem effect_fl (i : Instr) (s : State) : (effect i s).fl = s.fl := by cases i <;> rfl
@[simp] theorem effect_pc (i : Instr) (s : State) : (effect i s).pc = s.pc := by cases i <;> rfl
@[simp] theorem effect_fault (i : Instr) (s : State) : (effect i s).fault = s.fault := by cases i <;> rfl
@[simp] theorem effect_mem (i : Instr) (s : State) : (effect i s).mem = s.mem := by cases i <;> rfl

theorem effect_status {i : Instr} (hi : i ≠ .hlt) (s : State) : (effect i s).status = s.status := by
  cases i with
  | hlt => contradiction
  | ldi | prn | mul => rfl

theorem effect_out (i : Instr) (s : State) :
    (effect i s).out = s.out ∨ ∃ r, i = .prn r ∧ (effect i s).out = s.out ++ [readReg s (registerOf r)] := by
  cases i with
  | prn r => exact .inr ⟨r, rfl, rfl⟩
  | hlt | ldi | mul => exact .inl rfl

/-! ## Execution -/

/-- An instruction with an invalid register operand takes `InvalidRegister` for the first one. -/
theorem exec_firstInvalid {i : Instr} {b : Byte} (h : i.firstInvalid = some b) (s : State) :
    exec i s = .next (raise (.invalidRegister b) s) := by
  obtain ⟨hmem, hb⟩ := Instr.firstInvalid_spec h
  cases i with
  | hlt => cases hmem
  | ldi r v =>
    obtain rfl : b = r := List.mem_singleton.1 hmem
    exact exec_ldi_invalid hb v s
  | prn r =>
    obtain rfl : b = r := List.mem_singleton.1 hmem
    exact exec_prn_invalid hb s
  | mul r q =>
    by_cases hr : r.toNat < 8
    · have hbr : b ≠ r := fun e => absurd (e ▸ hb) (Nat.not_le.2 hr)
      obtain rfl : b = q := by simpa [Instr.registerBytes, hbr] using hmem
      exact exec_mul_invalid_second hr hb s
    · have hr' : 8 ≤ r.toNat := Nat.not_lt.1 hr
      obtain rfl : r = b := by
        simpa [Instr.firstInvalid, Instr.registerBytes, namesRegister_eq_false.2 hr'] using h
      exact exec_mul_invalid_first hr' q s

/-- A well-formed instruction makes its change and ends the step, having written no `pc`. -/
theorem exec_wf {i : Instr} (h : i.wf = true) (s : State) :
    exec i s = finish i.count ⟨effect i s, false⟩ := by
  cases i with
  | hlt => rfl
  | ldi r v =>
    have hr : r.toNat < 8 := Instr.wf_ldi.1 h
    rw [effect, registerOf_valid hr]
    exact withReg_valid hr s _
  | prn r =>
    have hr : r.toNat < 8 := Instr.wf_prn.1 h
    rw [effect, registerOf_valid hr]
    exact withReg_valid hr s _
  | mul r q =>
    obtain ⟨hr, hq⟩ := Instr.wf_mul.1 h
    rw [effect, registerOf_valid hr, registerOf_valid hq]
    exact (withReg_valid hr s _).trans (withReg_valid hq s _)

/-- Outside `Running` there is no advance. -/
theorem exec_wf_stopped {i : Instr} {s : State} (h : i.wf = true) (hs : s.status ≠ .running) :
    exec i s = .next (effect i s) := by
  have hstopped : (effect i s).status ≠ .running := by
    by_cases hi : i = .hlt
    · simp [hi, effect]
    · rwa [effect_status hi]
  rw [exec_wf h, finish_stopped hstopped]

/-- A running core moves past every instruction but HLT (R62, R64). -/
theorem exec_wf_running {i : Instr} {s : State} (h : i.wf = true) (hi : i ≠ .hlt)
    (hs : s.status = .running) : exec i s = .next (setPc (effect i s) (s.pc + i.count + 1)) := by
  have hrun : (effect i s).status = .running := (effect_status hi s).trans hs
  rw [exec_wf h, finish_running hrun rfl, effect_pc]

/-- Whatever it does, an instruction answers a next state. -/
theorem exec_answers_next (i : Instr) (s : State) : ∃ t, exec i s = .next t := by
  by_cases h : i.wf = true
  · rw [exec_wf h, finish]
    split <;> exact ⟨_, rfl⟩
  · obtain ⟨b, hb⟩ := Instr.exists_firstInvalid (Bool.eq_false_iff.2 h)
    exact ⟨_, exec_firstInvalid hb s⟩

theorem one_le_count {i : Instr} (hi : i ≠ .hlt) : 1 ≤ i.count := by
  cases i with
  | hlt => contradiction
  | ldi | prn | mul => simp [Instr.count, Instr.opcode]

end Sys2Proof.Machine
end

section
/-! SUPPORT. What one step can do, said once, and what it keeps: the invariant, memory, FL and the output
log (40_execution_cycle.md, R54 to R64; 60_exceptions.md). -/

namespace Sys2Proof.Machine

/-! ## The step -/

/-- Everything a running core's step can leave: a fault entry, for a fault of the fetch or for the first
invalid register operand; a halted core; or the completed instruction, with `pc` moved past it. -/
theorem step_running_cases {s t : State} (hs : s.status = .running) (h : step s = .next t) :
    (∃ c, t = raise c s ∧ (fetch s = .error (.raised c) ∨ ∃ b, 8 ≤ b.toNat ∧ c = .invalidRegister b)) ∨
    (fetch s = .ok .hlt ∧ t = halt s) ∨
    (∃ i, fetch s = .ok i ∧ i.wf = true ∧ i ≠ .hlt ∧ t = setPc (effect i s) (s.pc + i.count + 1)) := by
  obtain ⟨hstop, _⟩ | ⟨_, i, hf, hstep⟩ | ⟨_, c, hf, hstep⟩ | ⟨_, a, _, hstep⟩ := step_cases s
  · contradiction
  · have hexec : exec i s = .next t := hstep.symm.trans h
    by_cases hi : i = .hlt
    · subst hi
      rw [exec_hlt] at hexec
      injection hexec with ht
      exact .inr (.inl ⟨hf, ht.symm⟩)
    · by_cases hwf : i.wf = true
      · rw [exec_wf_running hwf hi hs] at hexec
        injection hexec with ht
        exact .inr (.inr ⟨i, hf, hwf, hi, ht.symm⟩)
      · obtain ⟨b, hb⟩ := Instr.exists_firstInvalid (Bool.eq_false_iff.2 hwf)
        rw [exec_firstInvalid hb] at hexec
        injection hexec with ht
        exact .inl ⟨_, ht.symm, .inr ⟨b, (Instr.firstInvalid_spec hb).2, rfl⟩⟩
  · injection hstep.symm.trans h with ht
    exact .inl ⟨c, ht.symm, .inl hf⟩
  · cases hstep.symm.trans h

/-- No step writes memory or FL (R10, R28). -/
theorem step_mem_fl {s t : State} (h : step s = .next t) : t.mem = s.mem ∧ t.fl = s.fl := by
  by_cases hs : s.status = .running
  · obtain ⟨c, rfl, _⟩ | ⟨_, rfl⟩ | ⟨i, _, _, _, rfl⟩ := step_running_cases hs h
    all_goals simp
  · cases (step_stopped hs).symm.trans h
    exact ⟨rfl, rfl⟩

theorem runFor_mem {k : Nat} {s t : State} (h : runFor k s = .next t) : t.mem = s.mem := by
  induction k generalizing s with
  | zero => cases h; rfl
  | succ k ih =>
    obtain ⟨u, hu, hrun⟩ := runFor_succ h
    exact (ih hrun).trans (step_mem_fl hu).1

/-! ## The invariant -/

/-- With all 256 cells the model's own stop is not met (log entry 3). -/
theorem fetch_error_raised {s : State} (hm : s.mem.wf) {e : Stop} (h : fetch s = .error e) :
    ∃ c, e = .raised c := by
  obtain ⟨e', hread, hf⟩ | ⟨op, _, _, hf⟩ | ⟨o, e', _, hread, hf⟩ | ⟨i, _, _, hf⟩ := fetch_cases s
  all_goals cases hf.symm.trans h
  · exact ⟨_, (memRead_error hm hread).2⟩
  · exact ⟨_, rfl⟩
  · obtain ⟨k, _, hk, _⟩ := readBytes_error hread
    exact ⟨_, (memRead_error hm hk).2⟩

theorem operandCount_byte_le_two (o : Opcode) : operandCount o.byte ≤ 2 := by
  cases o <;> decide

/-- A fetch that starts at `pc` at most 256 faults with an address of 256 or 257 or with an illegal
opcode. -/
theorem fetch_raised_legal {s : State} (hm : s.mem.wf) (hpc : s.pc ≤ 256) {c : Cause}
    (h : fetch s = .error (.raised c)) : c.legal := by
  obtain ⟨e, hread, hf⟩ | ⟨op, _, hop, hf⟩ | ⟨o, e, hop, hread, hf⟩ | ⟨i, _, _, hf⟩ := fetch_cases s
  all_goals cases hf.symm.trans h
  case inl =>
    obtain ⟨hbeyond, he⟩ := memRead_error hm hread
    cases he
    exact .inl (by omega)
  case inr.inl => exact decodeOpcode_none.1 hop
  case inr.inr.inl =>
    have hin : s.pc < 256 := memRead_ok_lt hop
    have hcount : operandCount o.byte ≤ 2 := operandCount_byte_le_two o
    obtain ⟨k, hk, hkread, _⟩ := readBytes_error hread
    obtain ⟨hbeyond, he⟩ := memRead_error hm hkread
    cases he
    show _ = 256 ∨ _ = 257
    omega

theorem State.Inv.raise {s : State} (h : s.Inv) {c : Cause} (hc : c.legal) : (raise c s).Inv where
  memory := h.memory
  pcRange := h.pcRange
  faultedIff := by simp
  record f hf := by cases hf; exact ⟨rfl, hc⟩

/-- A running core that meets the invariant has no fault record. -/
theorem State.Inv.fault_none {s : State} (h : s.Inv) (hs : s.status = .running) : s.fault = none := by
  have hsome : ¬ s.fault.isSome = true := fun hf => by simp [h.faultedIff.2 hf] at hs
  simpa using hsome

/-- A state with no fault record meets the invariant when memory, `pc` and status do. -/
theorem State.inv_of_fault_none {t : State} (hm : t.mem.wf) (hpc : t.pc ≤ 256) (hf : t.fault = none)
    (ht : t.status ≠ .faulted) : t.Inv where
  memory := hm
  pcRange := hpc
  faultedIff := by simp [hf, ht]
  record f h := by simp [hf] at h

theorem step_inv {s t : State} (h : s.Inv) (hstep : step s = .next t) : t.Inv := by
  by_cases hs : s.status = .running
  · have hnone : s.fault = none := h.fault_none hs
    obtain ⟨c, rfl, hc⟩ | ⟨_, rfl⟩ | ⟨i, hf, _, hi, rfl⟩ := step_running_cases hs hstep
    · refine h.raise ?_
      obtain hf | ⟨b, hb, rfl⟩ := hc
      · exact fetch_raised_legal h.memory h.pcRange hf
      · exact hb
    · exact State.inv_of_fault_none h.memory h.pcRange hnone (by simp)
    · obtain ⟨_, _, hend⟩ := fetch_ok hf
      exact State.inv_of_fault_none (by simpa using h.memory) hend (by simpa using hnone)
        (by simp [effect_status hi, hs])
  · cases (step_stopped hs).symm.trans hstep
    exact h

theorem step_answers_next {s : State} (h : s.Inv) : ∃ t, step s = .next t := by
  obtain ⟨_, hstep⟩ | ⟨_, i, _, hstep⟩ | ⟨_, c, _, hstep⟩ | ⟨_, a, hf, _⟩ := step_cases s
  · exact ⟨s, hstep⟩
  · exact (exec_answers_next i s).imp fun _ ht => hstep.trans ht
  · exact ⟨_, hstep⟩
  · obtain ⟨c, hc⟩ := fetch_error_raised h.memory hf
    cases hc

/-! ## The end of a run -/

/-- A step that leaves the core running moves `pc` by two or more. -/
theorem step_pc_add_two_le {s t : State} (hs : s.status = .running) (h : step s = .next t)
    (ht : t.status = .running) : s.pc + 2 ≤ t.pc := by
  obtain ⟨c, rfl, _⟩ | ⟨_, rfl⟩ | ⟨i, _, _, hi, rfl⟩ := step_running_cases hs h
  · simp at ht
  · simp at ht
  · have hcount := one_le_count hi
    simp only [setPc_pc]
    omega

/-- The bound of R67 from any `pc`: `k` steps are enough when twice `k` passes the end of memory. -/
theorem runFor_stops {k : Nat} {s : State} (h : s.Inv) (hk : 256 < s.pc + 2 * k) :
    ∃ t, runFor k s = .next t ∧ t.status ≠ .running := by
  induction k generalizing s with
  | zero => exact absurd h.pcRange (by omega)
  | succ k ih =>
    obtain ⟨u, hu⟩ := step_answers_next h
    rw [runFor_next hu]
    by_cases hrun : u.status = .running
    · have hs : s.status = .running := by
        by_contra hstop
        cases (step_stopped hstop).symm.trans hu
        exact hstop hrun
      have hpc : s.pc + 2 ≤ u.pc := step_pc_add_two_le hs hu hrun
      exact ih (step_inv h hu) (by omega)
    · exact ⟨u, runFor_stopped hrun k, hrun⟩

/-! ## The obligations -/

/-- Settles O9, over what a step can leave: a legal fault entry, a halted core, or an instruction that
ended inside memory. -/
theorem stepKeepsInvariant : Obligations.StepKeepsInvariant := fun _ _ => step_inv

/-- Settles O10: `exec` always answers a next state, and a fetch from 256 cells only stops with a fault of
the hardware. -/
theorem stepAnswersNextState : Obligations.StepAnswersNextState := fun _ => step_answers_next

/-- Settles O11: 129 steps of two bytes or more pass the end of memory from any `pc`. -/
theorem runEndsWithin129Steps : Obligations.RunEndsWithin129Steps := fun _ h => runFor_stops h (by omega)

/-- Settles O33, by induction over the run. -/
theorem runNeverWritesMemory : Obligations.RunNeverWritesMemory := fun _ _ _ => runFor_mem

/-- Settles O13: of the three ends of a running step only HLT's is `Halted`. -/
theorem onlyHltHalts : Obligations.OnlyHltHalts := by
  intro s t hs hstep ht
  obtain ⟨c, rfl, _⟩ | ⟨hf, rfl⟩ | ⟨i, _, _, hi, rfl⟩ := step_running_cases hs hstep
  · simp at ht
  · exact ⟨(fetch_ok hf).1, rfl⟩
  · simp [effect_status hi, hs] at ht

/-- Settles O14: only a completed instruction other than HLT leaves the core running, and it moves `pc` by
its own length. -/
theorem advanceIsExact : Obligations.AdvanceIsExact := by
  intro s t op hs hstep hop
  obtain ⟨c, rfl, _⟩ | ⟨_, rfl⟩ | ⟨i, hf, _, hi, rfl⟩ := step_running_cases hs hstep
  · simp
  · simp
  · have hrun : (setPc (effect i s) (s.pc + i.count + 1)).status = .running := by
      simp [effect_status hi, hs]
    obtain ⟨hopi, _, _⟩ := fetch_ok hf
    cases hopi.symm.trans hop
    exact ⟨fun _ => rfl, fun hstop => absurd hrun hstop⟩

/-- Settles O35: of the three ends of a running step only a fault entry is `Faulted`. -/
theorem faultingStepCommitsNothingElse : Obligations.FaultingStepCommitsNothingElse := by
  intro s t hs hstep ht
  obtain ⟨c, rfl, _⟩ | ⟨_, rfl⟩ | ⟨i, _, _, hi, rfl⟩ := step_running_cases hs hstep
  · exact ⟨c, rfl⟩
  · simp at ht
  · simp [effect_status hi, hs] at ht

/-- Settles O29: a completed instruction changes the log only if it is a PRN, whose bytes stand at `pc`. -/
theorem outputGrowsOnlyByPrn : Obligations.OutputGrowsOnlyByPrn := by
  intro s t hstep
  by_cases hs : s.status = .running
  case neg =>
    cases (step_stopped hs).symm.trans hstep
    exact .inl rfl
  obtain ⟨c, rfl, _⟩ | ⟨_, rfl⟩ | ⟨i, hf, hwf, hi, rfl⟩ := step_running_cases hs hstep
  · exact .inl rfl
  · exact .inl rfl
  · obtain hout | ⟨r, rfl, hout⟩ := effect_out i s
    · exact .inl hout
    · have hr : r.toNat < 8 := Instr.wf_prn.1 hwf
      refine .inr ⟨r, hr, hs, (fetch_ok hf).1, fetch_byte (k := 1) hf rfl, ?_, ?_⟩
      · simp [effect_status hi, hs]
      · rw [registerOf_valid hr] at hout
        exact hout

/-- Settles O36: the fetch stops at the first read that fails, and what it fetched stops at the first
register operand that names no register. -/
theorem firstFaultIsReported : Obligations.FirstFaultIsReported := by
  intro s hs
  refine ⟨fetchPastMemoryFaults.2 s hs, fun op hop hd => step_raised hs (fetch_illegal hop hd),
    fun o k hop h1 hk hbeyond hlow => ?operandRead, fun i k b hop hbs hk hb hlow => ?registerCheck⟩
  case operandRead =>
    obtain ⟨k, rfl⟩ : ∃ k', k = k' + 1 := ⟨k - 1, by omega⟩
    have hshift : ∀ j, s.pc + (j + 1) = s.pc + 1 + j := by omega
    rw [hshift] at hbeyond ⊢
    exact step_operandRead_outOfBounds hs hop hk hbeyond fun j hj =>
      hshift j ▸ hlow (j + 1) (by omega) (by omega)
  case registerCheck =>
    have hfirst : i.firstInvalid = some b := Instr.firstInvalid_of_getElem? hk hb hlow
    exact (step_fetched hs (fetch_at hop hbs)).trans (exec_firstInvalid hfirst s)

end Sys2Proof.Machine
end

section
/-! SUPPORT. Frames of the instructions, and what they do not depend on (10_state.md, R7, R10;
40_execution_cycle.md; 44_multiply.md, R76). -/

namespace Sys2Proof.Machine

/-! ## What an instruction leaves, in any status -/

/-- Everything an instruction can leave: the fault entry for the first invalid register operand, or its
change with some `pc`. -/
theorem exec_next_cases {i : Instr} {s t : State} (h : exec i s = .next t) :
    (i.wf = false ∧ ∃ b, t = raise (.invalidRegister b) s) ∨
    (i.wf = true ∧ ∃ p, t = setPc (effect i s) p) := by
  by_cases hwf : i.wf = true
  · rw [exec_wf hwf] at h
    exact .inr ⟨hwf, finish_next h⟩
  · have hfalse : i.wf = false := Bool.eq_false_iff.2 hwf
    obtain ⟨b, hb⟩ := Instr.exists_firstInvalid hfalse
    rw [exec_firstInvalid hb] at h
    injection h with ht
    exact .inl ⟨hfalse, b, ht.symm⟩

/-! ## Updates an instruction passes by -/

theorem writeReg_comm (s : State) {i j : Fin 8} (h : i ≠ j) (v w : Byte) :
    writeReg (writeReg s i v) j w = writeReg (writeReg s j w) i v := by
  have hval : i.val ≠ j.val := fun e => h (Fin.ext e)
  simp [writeReg, Vector.set_comm v w hval]

/-- An update of the state that the end of a step and a fault entry neither see nor undo. -/
structure PassedBy (f : State → State) : Prop where
  status : ∀ s, (f s).status = s.status
  pc : ∀ s, (f s).pc = s.pc
  setPc : ∀ s p, setPc (f s) p = f (setPc s p)
  raise : ∀ c s, raise c (f s) = f (raise c s)

theorem passedBy_writeReg (j : Fin 8) (v : Byte) : PassedBy fun s => writeReg s j v where
  status _ := rfl
  pc _ := rfl
  setPc _ _ := rfl
  raise _ _ := rfl

theorem passedBy_fl (v : Byte) : PassedBy fun s => { s with fl := v } where
  status _ := rfl
  pc _ := rfl
  setPc _ _ := rfl
  raise _ _ := rfl

theorem finish_passedBy {f : State → State} (hf : PassedBy f) (n : Nat) (s : State) :
    finish n ⟨f s, false⟩ = onNext f (finish n ⟨s, false⟩) := by
  by_cases hs : s.status = .running
  · have hfs : (f s).status = .running := (hf.status s).trans hs
    rw [finish_running hfs rfl, finish_running hs rfl, hf.pc, hf.setPc]
    rfl
  · have hfs : (f s).status ≠ .running := hf.status s ▸ hs
    rw [finish_stopped hfs, finish_stopped hs]
    rfl

/-- An update that also commutes with the instruction's change commutes with its execution. -/
theorem exec_passedBy {f : State → State} (hf : PassedBy f) {i : Instr} {s : State}
    (heff : i.wf = true → effect i (f s) = f (effect i s)) : exec i (f s) = onNext f (exec i s) := by
  by_cases hwf : i.wf = true
  · rw [exec_wf hwf, exec_wf hwf, heff hwf, finish_passedBy hf]
  · obtain ⟨b, hb⟩ := Instr.exists_firstInvalid (Bool.eq_false_iff.2 hwf)
    rw [exec_firstInvalid hb, exec_firstInvalid hb, hf.raise]
    rfl

theorem registerOf_ne {b : Byte} {j : Fin 8} (hb : b.toNat < 8) (h : b.toNat ≠ j.val) :
    j ≠ registerOf b := by
  rw [registerOf_valid hb]
  exact fun e => h (congrArg Fin.val e).symm

/-- A write to a register that no operand names commutes with the instruction's change (R7). -/
theorem effect_writeReg {i : Instr} {j : Fin 8} (hwf : i.wf = true)
    (h : ∀ b ∈ i.registerBytes, b.toNat ≠ j.val) (s : State) (v : Byte) :
    effect i (writeReg s j v) = writeReg (effect i s) j v := by
  have hne : ∀ b ∈ i.registerBytes, j ≠ registerOf b := fun b hb =>
    registerOf_ne (Instr.wf_iff.1 hwf b hb) (h b hb)
  cases i with
  | hlt => rfl
  | ldi r w =>
    have hr : j ≠ registerOf r := hne r (by simp [Instr.registerBytes])
    exact writeReg_comm s hr v w
  | prn r =>
    have hr : j ≠ registerOf r := hne r (by simp [Instr.registerBytes])
    simp only [effect, readReg_writeReg_other s j _ v hr.symm]
    rfl
  | mul r q =>
    have hr : j ≠ registerOf r := hne r (by simp [Instr.registerBytes])
    have hq : j ≠ registerOf q := hne q (by simp [Instr.registerBytes])
    simp only [effect, readReg_writeReg_other s j _ v hr.symm, readReg_writeReg_other s j _ v hq.symm,
      writeReg_comm s hr]

theorem effect_setFl (i : Instr) (s : State) (v : Byte) :
    effect i { s with fl := v } = { effect i s with fl := v } := by
  cases i <;> rfl

/-- FL influences no step: the fetch reads memory and `pc` only, and `exec` passes FL by (R10). -/
theorem step_setFl (s : State) (v : Byte) :
    step { s with fl := v } = onNext (fun t => { t with fl := v }) (step s) := by
  by_cases hs : s.status = .running
  · have hfetch : fetch { s with fl := v } = fetch s := rfl
    rw [step_running hs, step_running (s := { s with fl := v }) hs, hfetch]
    cases fetch s with
    | ok i => exact exec_passedBy (passedBy_fl v) fun _ => effect_setFl i s v
    | error e => cases e <;> rfl
  · rw [step_stopped hs, step_stopped (s := { s with fl := v }) hs]
    rfl

/-! ## The instruction after a register write -/

/-- A PRN or MUL right after a register write works on the value written (R109). -/
theorem writeReg_seen_by_next {s : State} {r : Byte} (hs : s.status = .running) (hr : r.toNat < 8)
    (v : Byte) (p : Nat) :
    ∃ u w, exec (.prn r) (setPc (writeReg s ⟨r.toNat, hr⟩ v) p) = .next u ∧ u.out = s.out ++ [v] ∧
      exec (.mul r r) (setPc (writeReg s ⟨r.toNat, hr⟩ v) p) = .next w ∧ w.regs[r.toNat] = mul8 v v := by
  have hrun : (setPc (writeReg s ⟨r.toNat, hr⟩ v) p).status = .running := hs
  refine ⟨_, _, exec_prn_valid hrun hr, ?_, exec_mul_valid hrun hr hr, ?_⟩
  · simp [readReg]
  · simp [readReg]

/-! ## The product -/

theorem mul8_comm (a b : Byte) : mul8 a b = mul8 b a := by
  simp only [mul8, Nat.mul_comm]

/-- The low byte of the exact 16-bit product (R76). -/
theorem mul8_eq_low_byte (a b : Byte) : mul8 a b = (a.setWidth 16 * b.setWidth 16).extractLsb' 0 8 := by
  refine BitVec.eq_of_toNat_eq ?_
  have hdvd : a.toNat * b.toNat % 65536 % 256 = a.toNat * b.toNat % 256 := Nat.mod_mod_of_dvd _ (by decide)
  simp [hdvd]

/-! ## The obligations -/

/-- Settles O20: the two instructions write the same value, by `mul8_comm`, to different registers. -/
theorem multiplyArithmeticLaws : Obligations.MultiplyArithmeticLaws := by
  refine ⟨mul8_eq_low_byte, mul8_comm, fun s t u r q hr hq hs hne ht hu => ?destinations⟩
  case destinations =>
    have hval : r.toNat ≠ q.toNat := fun e => hne (BitVec.eq_of_toNat_eq e)
    cases (exec_mul_valid hs hr hq).symm.trans ht
    cases (exec_mul_valid hs hq hr).symm.trans hu
    refine ⟨?_, ?_, ?_⟩
    · simp [mul8_comm]
    · simp [Vector.getElem_set_ne, hval]
    · simp [Vector.getElem_set_ne, hval.symm]

/-- Settles O21: a well-formed instruction halts or advances, any other takes the fault entry for its first
invalid register operand. -/
theorem completesExactlyWhenWellFormed : Obligations.CompletesExactlyWhenWellFormed := by
  refine fun i s hs => ⟨fun hwf => ?completes, fun hwf => ?faults⟩
  case completes =>
    by_cases hi : i = .hlt
    · subst hi
      exact ⟨_, exec_hlt s, by simp, rfl⟩
    · exact ⟨_, exec_wf_running hwf hi hs, by simp [effect_status hi, hs], effect_fault i s⟩
  case faults =>
    obtain ⟨b, hb⟩ := Instr.exists_firstInvalid hwf
    obtain ⟨hmem, hinvalid⟩ := Instr.firstInvalid_spec hb
    exact ⟨_, b, exec_firstInvalid hb s, rfl, hmem, hinvalid, rfl⟩

/-- Settles O22: either instruction is a fault entry or one register write. -/
theorem registerWriteFrame : Obligations.RegisterWriteFrame := by
  intro s t i r v hi h
  obtain ⟨hwf, b, rfl⟩ | ⟨hwf, p, rfl⟩ := exec_next_cases h
  · exact ⟨fun _ _ => rfl, rfl, rfl, fun _ => rfl, fun h => by simp [hwf] at h, fun _ => ⟨rfl, rfl⟩⟩
  · obtain ⟨hr, w, hw⟩ : r.toNat < 8 ∧ ∃ w, effect i s = writeReg s (registerOf r) w := by
      obtain rfl | rfl := hi
      · exact ⟨Instr.wf_ldi.1 hwf, _, rfl⟩
      · exact ⟨(Instr.wf_mul.1 hwf).1, _, rfl⟩
    rw [hw]
    refine ⟨fun j hj => ?_, rfl, rfl, fun _ => rfl, fun _ => ⟨rfl, rfl⟩, fun h => by simp [hwf] at h⟩
    exact readReg_writeReg_other s _ j w (registerOf_ne hr hj.symm)

/-- Settles O23: PRN is a fault entry or one output value. -/
theorem printFrame : Obligations.PrintFrame := by
  intro s t r h
  obtain ⟨hwf, b, rfl⟩ | ⟨hwf, p, rfl⟩ := exec_next_cases h
  · have hr : ¬ r.toNat < 8 := fun hr => by simp [Instr.wf_prn.2 hr] at hwf
    exact ⟨rfl, rfl, fun _ => rfl, fun h => absurd h hr, fun _ => ⟨rfl, rfl⟩⟩
  · have hr : r.toNat < 8 := Instr.wf_prn.1 hwf
    exact ⟨rfl, rfl, fun _ => rfl, fun _ => ⟨rfl, rfl⟩, fun h => absurd hr (Nat.not_lt.2 h)⟩

/-- Settles O24: HLT writes the status only. -/
theorem haltFrame : Obligations.HaltFrame := by
  intro s t h
  cases (exec_hlt s).symm.trans h
  exact ⟨rfl, rfl, rfl, rfl, rfl, fun _ => rfl⟩

/-- Settles O27: a write to an unnamed register commutes with each instruction's change. -/
theorem unnamedRegisterIsNotUsed : Obligations.UnnamedRegisterIsNotUsed := fun _ s j v h =>
  exec_passedBy (passedBy_writeReg j v) fun hwf => effect_writeReg hwf h s v

/-- Settles O28: no step writes FL, and a write to FL commutes with the step. -/
theorem flagsRegisterIsInert : Obligations.FlagsRegisterIsInert :=
  ⟨fun _ _ h => (step_mem_fl h).2, step_setFl⟩

/-- Settles O25: each first instruction ends in a register write, which the second one reads. -/
theorem nextInstructionSeesResult : Obligations.NextInstructionSeesResult := by
  refine fun s r q v hr hq hs => ⟨?afterLdi, ?afterMul⟩
  case afterLdi =>
    obtain ⟨u, w, hseen⟩ := writeReg_seen_by_next hs hr v (s.pc + 3)
    exact ⟨_, u, w, exec_ldi_valid hs hr v, hseen⟩
  case afterMul =>
    obtain ⟨u, w, hseen⟩ := writeReg_seen_by_next hs hr
      (mul8 (readReg s ⟨r.toNat, hr⟩) (readReg s ⟨q.toNat, hq⟩)) (s.pc + 3)
    exact ⟨_, u, w, _, rfl, exec_mul_valid hs hr hq, hseen⟩

/-- Settles O44: the change without the advance, and the fault entry for the first invalid register
operand, which no status changes. -/
theorem execOutsideRunning : Obligations.ExecOutsideRunning := by
  refine fun s hs => ⟨exec_hlt s, fun r v hr => ?ldi, fun r hr => ?prn, fun r q hr hq => ?mul,
    fun b v i hb hi => ?invalid⟩
  case ldi =>
    rw [exec_wf_stopped (Instr.wf_ldi.2 hr) hs, effect, registerOf_valid hr]
    rfl
  case prn =>
    rw [exec_wf_stopped (Instr.wf_prn.2 hr) hs, effect, registerOf_valid hr]
    rfl
  case mul =>
    rw [exec_wf_stopped (Instr.wf_mul.2 ⟨hr, hq⟩) hs, effect, registerOf_valid hr, registerOf_valid hq]
    rfl
  case invalid =>
    obtain rfl | rfl | rfl | ⟨rfl, hv⟩ := hi
    · exact exec_ldi_invalid hb v s
    · exact exec_prn_invalid hb s
    · exact exec_mul_invalid_first hb v s
    · exact exec_mul_invalid_second hv hb s

end Sys2Proof.Machine
end

section
/-! SUPPORT. The load and the launch (70_reset_and_hazards.md, R98 to R103). -/

namespace Sys2Proof.Machine

/-! ## Writing an image -/

theorem writeBytes_cons (m : Memory) {a : Nat} (ha : a < 256) (v : Byte) (vs : List Byte) :
    writeBytes m a (v :: vs) = writeBytes (setCell m a v) (a + 1) vs := by
  simp [writeBytes, memWrite_inRange m ha]

/-- Every byte of an image that fits is read back at its address, and every other address keeps its
value. -/
theorem writeBytes_fits (m : Memory) {a : Nat} {vs : List Byte} (h : a + vs.length ≤ 256) :
    ∃ m', writeBytes m a vs = .ok m' ∧ (∀ j v, vs[j]? = some v → memRead m' (a + j) = .ok v) ∧
      ∀ b, b < a ∨ a + vs.length ≤ b → memRead m' b = memRead m b := by
  induction vs generalizing m a with
  | nil => exact ⟨m, rfl, by simp, fun _ _ => rfl⟩
  | cons v vs ih =>
    rw [List.length_cons] at h ⊢
    have ha : a < 256 := by omega
    obtain ⟨m', hm', hin, hout⟩ := ih (setCell m a v) (a := a + 1) (by omega)
    refine ⟨m', (writeBytes_cons m ha v vs).trans hm', fun j w hj => ?_, fun b hb => ?_⟩
    · cases j with
      | zero =>
        obtain rfl : v = w := by simpa using hj
        exact (hout a (.inl a.lt_succ_self)).trans (memRead_setCell_same m ha v)
      | succ j =>
        rw [show a + (j + 1) = a + 1 + j by omega]
        exact hin j w (by simpa using hj)
    · exact (hout b (by omega)).trans (memRead_setCell_other m (by omega) v)

/-- An image that does not fit fails at the write to 256, the first one out of range. -/
theorem writeBytes_overrun (m : Memory) {a : Nat} {vs : List Byte} (ha : a ≤ 256)
    (h : 256 < a + vs.length) : writeBytes m a vs = .error (.outOfBounds 256) := by
  induction vs generalizing m a with
  | nil => exact absurd h (Nat.not_lt.2 ha)
  | cons v vs ih =>
    rw [List.length_cons] at h
    obtain hlt | rfl := Nat.lt_or_eq_of_le ha
    · rw [writeBytes_cons m hlt]
      exact ih _ (by omega) (by omega)
    · simp [writeBytes, memWrite_outOfBounds m le_rfl]

/-! ## Writing the same image again -/

/-- A byte that already stands where a write would place it stays there through a write of another
address. -/
theorem setCell_setCell_of_eq {m : Memory} {a b : Nat} {v : Byte} (h : setCell m a v = m) (hb : b ≠ a)
    (w : Byte) : setCell (setCell m b w) a v = setCell m b w := by
  induction m with
  | nil => cases h
  | cons c m ih =>
    obtain ⟨d, x⟩ := c
    obtain hlt | rfl | hgt := Nat.lt_trichotomy a d
    · have hlen := congrArg List.length h
      simp [setCell, hlt] at hlen
    · obtain rfl : v = x := by simpa [setCell] using h
      obtain hba | hab := Nat.lt_or_gt_of_ne hb
      · simp [setCell, hba, hba.asymm, hb.symm]
      · simp [setCell, hab.asymm, hb]
    · have hm : setCell m a v = m := by simpa [setCell, hgt.asymm, hgt.ne'] using h
      obtain hlt | rfl | hgt' := Nat.lt_trichotomy b d
      · simp [setCell, hlt, hgt.asymm, hgt.ne', hb.symm, (hlt.trans hgt).asymm, hm]
      · simp [setCell, hgt.asymm, hgt.ne', hm]
      · simp [setCell, hgt.asymm, hgt.ne', hgt'.asymm, hgt'.ne', ih hm]

theorem setCell_idem (m : Memory) (a : Nat) (v : Byte) : setCell (setCell m a v) a v = setCell m a v := by
  induction m with
  | nil => simp [setCell]
  | cons c m ih =>
    obtain ⟨d, x⟩ := c
    obtain hlt | rfl | hgt := Nat.lt_trichotomy a d
    · simp [setCell, hlt]
    · simp [setCell]
    · simp [setCell, hgt.asymm, hgt.ne', ih]

/-- A byte already in place below an image stays in place while the image is written. -/
theorem setCell_writeBytes_of_eq {m m' : Memory} {a b : Nat} {v : Byte} {vs : List Byte}
    (h : setCell m a v = m) (hab : a < b) (hw : writeBytes m b vs = .ok m') : setCell m' a v = m' := by
  induction vs generalizing m b with
  | nil => cases hw; exact h
  | cons w vs ih =>
    have hb : b < 256 := by
      by_contra hb
      simp [writeBytes, memWrite_outOfBounds m (Nat.not_lt.1 hb)] at hw
    rw [writeBytes_cons m hb] at hw
    exact ih (setCell_setCell_of_eq h hab.ne' w) (hab.trans b.lt_succ_self) hw

/-- A load over its own result changes nothing. -/
theorem writeBytes_idem {m m' : Memory} {a : Nat} {vs : List Byte} (h : writeBytes m a vs = .ok m') :
    writeBytes m' a vs = .ok m' := by
  induction vs generalizing m a with
  | nil => rfl
  | cons v vs ih =>
    have ha : a < 256 := by
      by_contra ha
      simp [writeBytes, memWrite_outOfBounds m (Nat.not_lt.1 ha)] at h
    rw [writeBytes_cons m ha] at h
    have hplace : setCell m' a v = m' := setCell_writeBytes_of_eq (setCell_idem m a v) a.lt_succ_self h
    rw [writeBytes_cons m' ha, hplace]
    exact ih h

/-! ## The launch -/

theorem launch_ok {image : List Byte} {s : State} {m : Memory} (h : writeBytes s.mem 0 image = .ok m) :
    launch image s = .ok { State.reset with mem := m } := by
  simp [launch, load, h, applyReset]

theorem launch_tooLong {image : List Byte} {s : State} {c : Cause}
    (h : writeBytes s.mem 0 image = .error c) : launch image s = .error (.imageTooLong c) := by
  simp [launch, load, h]

/-- A launch state is the reset state over the memory the image was written to. -/
theorem launch_eq_ok {image : List Byte} {s l : State} (h : launch image s = .ok l) :
    writeBytes s.mem 0 image = .ok l.mem ∧ l = { State.reset with mem := l.mem } := by
  cases hw : writeBytes s.mem 0 image with
  | error c => cases (launch_tooLong hw).symm.trans h
  | ok m => cases (launch_ok hw).symm.trans h; exact ⟨rfl, rfl⟩

/-! ## The obligations -/

/-- Settles O39: the reset keeps memory, and the image fits. -/
theorem launchPlacesImage : Obligations.LaunchPlacesImage := by
  intro image s hwf hlen
  obtain ⟨m, hm, hin, hout⟩ := writeBytes_fits s.mem (a := 0) (by omega : 0 + image.length ≤ 256)
  refine ⟨_, launch_ok hm, rfl, writeBytes_wf hwf hm, fun a v hv => ?image, fun a ha => ?beyond⟩
  case image => simpa using hin a v hv
  case beyond => exact hout a (.inr (by omega))

/-- Settles O40: the write to 256 fails. -/
theorem oversizeImageIsRefused : Obligations.OversizeImageIsRefused := fun _ s h =>
  launch_tooLong (writeBytes_overrun s.mem (Nat.zero_le _) (by omega))

/-- Settles O41: the run has kept memory, where the image already stands. -/
theorem relaunchReproducesTheRun : Obligations.RelaunchReproducesTheRun := by
  intro image s l t k hl hrun
  obtain ⟨hw, hreset⟩ := launch_eq_ok hl
  have hmem : t.mem = l.mem := runFor_mem hrun
  have hagain : writeBytes t.mem 0 image = .ok l.mem := by
    rw [hmem]
    exact writeBytes_idem hw
  exact (launch_ok hagain).trans (congrArg Except.ok hreset.symm)

end Sys2Proof.Machine
end

section
/-! SUPPORT. The image file: the text of an image is read back, and a bad line is refused
(30_encoding.md, R53; 70_reset_and_hazards.md, R104). -/

namespace Sys2Proof.Machine

/-! ## Lines -/

/-- A line feed ends a line that holds none. -/
theorem splitLines_append_lineFeed {l : List Char} (h : '\n' ∉ l) (rest : List Char) :
    splitLines (l ++ '\n' :: rest) = l :: splitLines rest := by
  induction l with
  | nil => simp [splitLines]
  | cons c l ih =>
    obtain ⟨hc, hl⟩ := not_or.1 (List.mem_cons.not.1 h)
    simp [splitLines, ih hl, Ne.symm hc]

theorem stripComment_eq_self {l : List Char} (h : '#' ∉ l) : stripComment l = l :=
  List.takeWhile_eq_self_iff.2 fun c hc => by
    simpa using fun e : c = '#' => h (e ▸ hc)

theorem stripSpace_eq_self {l : List Char} (h : ∀ c ∈ l, c.isWhitespace = false) : stripSpace l = l := by
  have hdrop : ∀ l' : List Char, (∀ c ∈ l', c.isWhitespace = false) →
      l'.dropWhile Char.isWhitespace = l' := fun l' h' =>
    List.dropWhile_eq_self_iff.2 fun hlen => by simp [h' _ (List.getElem_mem hlen)]
  simp [stripSpace, hdrop l h, hdrop l.reverse (by simpa using h)]

/-! ## Base-2 digits -/

theorem binaryValue_cons_bit (acc : Nat) (b : Bool) (cs : List Char) :
    binaryValue acc ((if b then '1' else '0') :: cs) = binaryValue (2 * acc + b.toNat) cs := by
  cases b <;> rfl

/-- The digits of a byte from bit `n - 1` down to bit 0 add its value modulo `2 ^ n` to the digits read
before. -/
theorem binaryValue_bits (v : Byte) (n acc : Nat) :
    binaryValue acc ((List.range n).reverse.map fun k => if v.getLsbD k then '1' else '0') =
      some (acc * 2 ^ n + v.toNat % 2 ^ n) := by
  induction n generalizing acc with
  | zero => simp [binaryValue, Nat.mod_one]
  | succ n ih =>
    have hbit : v.toNat / 2 ^ n % 2 = (v.getLsbD n).toNat := (Nat.toNat_testBit ..).symm
    rw [List.range_succ, List.reverse_concat, List.map_cons, binaryValue_cons_bit, ih, Nat.mod_pow_succ,
      hbit]
    exact congrArg some (by ring)

theorem binaryLine_eq_bits (v : Byte) :
    binaryLine v = (List.range 8).reverse.map fun k => if v.getLsbD k then '1' else '0' := rfl

theorem binaryValue_binaryLine (v : Byte) : binaryValue 0 (binaryLine v) = some v.toNat := by
  have hbyte : v.toNat % 2 ^ 8 = v.toNat := Nat.mod_eq_of_lt v.isLt
  rw [binaryLine_eq_bits, binaryValue_bits, hbyte, Nat.zero_mul, Nat.zero_add]

theorem mem_binaryLine {v : Byte} {c : Char} (h : c ∈ binaryLine v) : c = '0' ∨ c = '1' := by
  obtain ⟨k, _, rfl⟩ := List.mem_map.1 h
  cases v.getLsbD k
  · exact .inl rfl
  · exact .inr rfl

/-- A character that is no base-2 digit leaves a token without a value. -/
theorem binaryValue_eq_none {l : List Char} {c : Char} (hc : c ∈ l) (h0 : c ≠ '0') (h1 : c ≠ '1')
    (acc : Nat) : binaryValue acc l = none := by
  induction l generalizing acc with
  | nil => cases hc
  | cons d l ih =>
    obtain rfl | hl := List.mem_cons.1 hc
    · simp [binaryValue, binaryDigit, h0, h1]
    · cases hd : binaryDigit d with
      | none => simp [binaryValue, hd]
      | some n => simpa [binaryValue, hd] using ih hl _

/-! ## Parsing a line -/

theorem parseLine_value {l : List Char} {n : Nat} (hne : stripSpace (stripComment l) ≠ [])
    (hv : binaryValue 0 (stripSpace (stripComment l)) = some n) :
    parseLine l = if n < 256 then .ok (some (BitVec.ofNat 8 n)) else .error .badLine := by
  simp [parseLine, hv]

theorem parseLine_noValue {l : List Char} (hne : stripSpace (stripComment l) ≠ [])
    (hv : binaryValue 0 (stripSpace (stripComment l)) = none) : parseLine l = .error .badLine := by
  simp [parseLine, hv]

theorem parseLine_binaryLine (v : Byte) : parseLine (binaryLine v) = .ok (some v) := by
  have hcomment : stripComment (binaryLine v) = binaryLine v := stripComment_eq_self fun h => by
    simpa using mem_binaryLine h
  have hspace : stripSpace (binaryLine v) = binaryLine v := stripSpace_eq_self fun c h => by
    obtain rfl | rfl := mem_binaryLine h <;> rfl
  have hstrip : stripSpace (stripComment (binaryLine v)) = binaryLine v := by rw [hcomment, hspace]
  have hne : binaryLine v ≠ [] := by simp [binaryLine]
  have hparse := parseLine_value (by rwa [hstrip]) (hstrip.symm ▸ binaryValue_binaryLine v)
  simpa [hparse] using v.isLt

theorem parseLines_cons_ok {l : List Char} {b : Option Byte} (h : parseLine l = .ok b)
    {ls : List (List Char)} {bs : List Byte} (hs : parseLines ls = .ok bs) :
    parseLines (l :: ls) = .ok (b.toList ++ bs) := by
  simp [parseLines, h, hs]

/-- The first bad line after accepted ones refuses the text, whatever comes after it. -/
theorem parseLines_badLine {ls₁ ls₂ : List (List Char)} {l : List Char} {bs : List Byte}
    (h₁ : parseLines ls₁ = .ok bs) (hl : parseLine l = .error .badLine) :
    parseLines (ls₁ ++ l :: ls₂) = .error .badLine := by
  induction ls₁ generalizing bs with
  | nil => simp [parseLines, hl]
  | cons l₁ ls₁ ih =>
    cases hl₁ : parseLine l₁ with
    | error e => simp [parseLines, hl₁] at h₁
    | ok b =>
      cases hls₁ : parseLines ls₁ with
      | error e => simp [parseLines, hl₁, hls₁] at h₁
      | ok bs₁ => simp [parseLines, hl₁, ih hls₁]

/-! ## The obligations -/

/-- Settles O42, by induction over the image: each byte's line is cut off and read back, and the empty
line after the last line feed is skipped. -/
theorem imageTextReadsBack : Obligations.ImageTextReadsBack := by
  intro image
  induction image with
  | nil => rfl
  | cons v image ih =>
    have hline : '\n' ∉ binaryLine v := fun h => by simpa using mem_binaryLine h
    have htext : imageText (v :: image) = binaryLine v ++ '\n' :: imageText image := by simp [imageText]
    rw [parseImage, htext, splitLines_append_lineFeed hline]
    exact parseLines_cons_ok (parseLine_binaryLine v) ih

/-- Settles O43: a token that is not empty and has no value, or one beyond a byte, is a bad line, and so
is the text. -/
theorem badImageFilesAreRefused : Obligations.BadImageFilesAreRefused := by
  refine ⟨fun _ => rfl, fun l c hc h0 h1 => ?badCharacter, fun l v hv hbig => ?tooLarge,
    fun text s ⟨ls₁, l, ls₂, bs, htext, h₁, hl⟩ => ?badText⟩
  case badCharacter =>
    exact parseLine_noValue (List.ne_nil_of_mem hc) (binaryValue_eq_none hc h0 h1 0)
  case tooLarge =>
    have hne : stripSpace (stripComment l) ≠ [] := fun hnil => by
      rw [hnil] at hv
      obtain rfl : 0 = v := by simpa [binaryValue] using hv
      omega
    rw [parseLine_value hne hv, if_neg (Nat.not_lt.2 hbig)]
  case badText =>
    have hparse : parseImage text = .error .badLine := by
      rw [parseImage, htext]
      exact parseLines_badLine h₁ hl
    simp [launchFile, hparse]

end Sys2Proof.Machine
end

section
/-! SUPPORT. The step of decoded bytes, reset, stopped cores, and what the host sees (40_execution_cycle.md;
70_reset_and_hazards.md, R98; 43_print.md, R73; 10_state.md, R14, R15, R21). -/

namespace Sys2Proof.Machine

/-! ## Reset -/

theorem memRead_init (a : Fin 256) : memRead Memory.init a.val = .ok (Config.memInit a) := by
  obtain ⟨v, hcell, hread⟩ := memReadIsRangeChecked.1 Memory.init a.val Memory.init_wf a.isLt
  have hinit : Memory.init[a.val]? = some (a.val, Config.memInit a) := by simp [Memory.init]
  cases hcell.symm.trans hinit
  exact hread

theorem reset_inv : State.reset.Inv := State.inv_of_fault_none reset_mem_wf (Nat.zero_le _) rfl (by decide)

/-! ## Decimal digits -/

theorem asciiDigit_toNat (n : Nat) : (asciiDigit n).toNat = 0x30 + n % 10 := by
  simp only [asciiDigit, BitVec.toNat_ofNat]
  omega

theorem asciiDigit_digit (n : Nat) : (asciiDigit n).toNat - 0x30 = n % 10 := by
  simp [asciiDigit_toNat]

/-- A digit that is not zero is not the character 0. -/
theorem asciiDigit_ne_zero {n : Nat} (h : n % 10 ≠ 0) : asciiDigit n ≠ 0x30 := fun e => by
  have hval : 0x30 = 0x30 + n % 10 := by
    rw [← asciiDigit_toNat, e]
    rfl
  omega

/-- One, two or three digits, by the size of the value. -/
theorem decimalDigits_cases (v : Byte) :
    (v.toNat < 10 ∧ decimalDigits v = [asciiDigit v.toNat]) ∨
    (10 ≤ v.toNat ∧ v.toNat < 100 ∧ decimalDigits v = [asciiDigit (v.toNat / 10), asciiDigit v.toNat]) ∨
    (100 ≤ v.toNat ∧ decimalDigits v =
      [asciiDigit (v.toNat / 100), asciiDigit (v.toNat / 10), asciiDigit v.toNat]) := by
  unfold decimalDigits
  split
  · exact .inl ⟨‹_›, rfl⟩
  · split
    · exact .inr (.inl ⟨by omega, ‹_›, rfl⟩)
    · exact .inr (.inr ⟨by omega, rfl⟩)

theorem decimalDigits_value (v : Byte) :
    (decimalDigits v).foldl (fun n d => 10 * n + (d.toNat - 0x30)) 0 = v.toNat := by
  have hv : v.toNat < 256 := v.isLt
  obtain ⟨h, hd⟩ | ⟨h, h', hd⟩ | ⟨h, hd⟩ := decimalDigits_cases v
  all_goals
    simp only [hd, List.foldl_cons, List.foldl_nil, asciiDigit_digit]
    omega

theorem decimalDigits_ascii {v d : Byte} (h : d ∈ decimalDigits v) : 0x30 ≤ d.toNat ∧ d.toNat ≤ 0x39 := by
  obtain ⟨n, rfl⟩ : ∃ n, d = asciiDigit n := by
    obtain ⟨_, hd⟩ | ⟨_, _, hd⟩ | ⟨_, hd⟩ := decimalDigits_cases v
    all_goals
      simp only [hd, List.mem_cons, List.not_mem_nil, or_false] at h
    · exact ⟨_, h⟩
    · obtain h | h := h <;> exact ⟨_, h⟩
    · obtain h | h | h := h <;> exact ⟨_, h⟩
  rw [asciiDigit_toNat]
  omega

theorem decimalDigits_noLeadingZero (v : Byte) :
    (decimalDigits v).length = 1 ∨ (decimalDigits v).head? ≠ some 0x30 := by
  have hv : v.toNat < 256 := v.isLt
  obtain ⟨_, hd⟩ | ⟨h, h', hd⟩ | ⟨h, hd⟩ := decimalDigits_cases v
  · exact .inl (congrArg List.length hd)
  · have hne : asciiDigit (v.toNat / 10) ≠ 0x30 := asciiDigit_ne_zero (by omega)
    exact .inr (by simpa [hd] using hne)
  · have hne : asciiDigit (v.toNat / 100) ≠ 0x30 := asciiDigit_ne_zero (by omega)
    exact .inr (by simpa [hd] using hne)

/-! ## The obligations -/

/-- Settles O1: bytes that decode with none left are the instruction's own, so the fetch gives it. -/
theorem stepRunsDecodedInstruction : Obligations.StepRunsDecodedInstruction := by
  intro s op bs i hs hop hbs hdec
  have henc : op :: bs = i.opcode.byte :: i.operands := by simpa [encode] using decode_ok hdec
  obtain ⟨rfl, rfl⟩ := List.cons.inj henc
  exact step_fetched hs (fetch_at hop hbs)

/-- Settles O2: each word is an encoding, and neither of the last two bytes is in the opcode map. -/
theorem specWordsDecode : Obligations.SpecWordsDecode :=
  ⟨decode_encode_append .hlt [], decode_encode_append (.ldi 0 8) [], decode_encode_append (.prn 0) [0x01],
    decode_encode_append (.mul 5 2) [], decode_encode_append (.prn 8) [], decode_illegal rfl [],
    decode_illegal rfl []⟩

/-- Settles O7: each open value is the constant of its register or cell. -/
theorem resetStateValues : Obligations.ResetStateValues :=
  ⟨readReg_reset, rfl, rfl, rfl, rfl, rfl, memRead_init, fun _ => rfl⟩

/-- Settles O8: a reset core has 256 cells and no fault record. -/
theorem resetMeetsInvariant : Obligations.ResetMeetsInvariant := reset_inv

/-- Settles O12: only a running core takes a step. -/
theorem stoppedCoreStaysStopped : Obligations.StoppedCoreStaysStopped := fun _ h =>
  step_stopped (by obtain h | h := h <;> simp [h])

/-- Settles O15, one handler after the other. -/
theorem handlersNeverRetarget : Obligations.HandlersNeverRetarget := by
  intro s r q v h hmem
  simp only [List.mem_cons, List.not_mem_nil, or_false] at hmem
  obtain rfl | rfl | rfl | rfl := hmem <;> exact ⟨rfl, rfl⟩

/-- Settles O30: a byte has one, two or three digits, and the leading one of several is not zero. -/
theorem renderedLineIsDecimal : Obligations.RenderedLineIsDecimal := by
  refine ⟨fun v => ⟨rfl, decimalDigits_value v, fun _ => decimalDigits_ascii, decimalDigits_noLeadingZero v⟩,
    rfl, rfl⟩

/-- Settles O37, code by code. -/
theorem statusAndFaultCodes : Obligations.StatusAndFaultCodes :=
  ⟨rfl, rfl, rfl, fun _ _ => rfl, fun _ _ => rfl, fun _ _ => rfl, rfl, rfl, rfl⟩

/-- Settles O38: the inspection copies every field once the core has stopped. -/
theorem inspectOnlyWhenStopped : Obligations.InspectOnlyWhenStopped := fun _ =>
  ⟨fun hs => if_pos hs, fun hs => ⟨_, if_neg hs, rfl, rfl, rfl, rfl, rfl, rfl, rfl⟩⟩

end Sys2Proof.Machine
end
